-- ==== Sys2Proof/Word.lean ====
section
/-!
DEFINITION. The widths of the core: 32-bit words inside, 8-bit bytes at the memory boundary, and 16 registers
to a file (00_scope.md R3, 10_state.md R10, R12). The arithmetic on words is in Machine/Operands.lean.
-/
namespace Sys2Proof

/-- An unsigned 32-bit word, bit 0 the least significant (R3). -/
abbrev Word := BitVec 32

/-- A byte of the key, nonce or output buffer (R3). -/
abbrev Byte := BitVec 8

/-- A register number, 0 to 15: every 4-bit value names a register (R10, R74). -/
abbrev RegIdx := Fin 16

/-- One register file of 16 words: the working block `W` or the cipher state `S` (R10, R12). -/
abbrev RegFile := Vector Word 16

end Sys2Proof
end

