-- ==== Sys2Proof/Config.lean ====
section
/-!
DEFINITION. What is fixed for the hardware: the static parameters of the step relation (10_state.md R23,
00_scope.md section 4) and the two values the spec leaves without any value (HALT_CODE, a mid-run byte of `OUT`).
-/
namespace Sys2Proof

/-- HOST_BYTE_ORDER, the byte order of the output serialisation (20_memory.md R47). -/
inductive ByteOrder
  | little
  | big
  deriving DecidableEq, Repr

/-- The static parameters of the step relation (R23): three buffer addresses (R41) and HOST_BYTE_ORDER (R47).
They travel in `State` so that every statement is for every value of them; no operation changes them (log 5). -/
structure Params where
  keyAddr : Word
  nonceAddr : Word
  outAddr : Word
  byteOrder : ByteOrder
  deriving DecidableEq, Repr

/-- Size of `KEY` in bytes (R19, R41). -/
abbrev Config.keyBytes : Nat := 32

/-- Size of `NONCE` in bytes (R20, R41). -/
abbrev Config.nonceBytes : Nat := 12

/-- Size of `OUT` in bytes (R21, R41). -/
abbrev Config.outBytes : Nat := 64

/-- Number of byte addresses: an address is an unsigned 32-bit word (R40). -/
abbrev Config.addressSpace : Nat := 4294967296

/-- HALT_CODE, the "fixed trap code" whose value the spec does not give and no rule inspects (30_encoding.md R81).
A free value: nothing can be proved of it (log 12). -/
opaque Config.haltCode : Nat

/-- The byte a host read of `OUT` sees between the two SIG.OUT requests of a run with `N >= 1`: any byte
(20_memory.md R55, 93 U5). A free value of the number of the read and the address (log 11). -/
opaque Config.midRunByte : Nat → Nat → Byte

end Sys2Proof
end

