-- ==== Sys2Proof/Syntax.lean ====
section
/-!
DEFINITION. The eleven operations of the core (30_encoding.md R70, R72), one constructor per row of
spec/opcode_table.json, and the names under which a reserved operation word is refused (R76).
-/
namespace Sys2Proof

/-- The operations of 30_encoding.md R72. Only QR has operands (R74, R75). -/
inductive Instr
  /-- SIG.KEY: publish the key buffer's address (R172). -/
  | sigKey
  /-- SIG.NONCE: publish the nonce buffer's address (R173). -/
  | sigNonce
  /-- SIG.COUNT: request the iteration count (R174). -/
  | sigCount
  /-- SIG.OUT: announce the output buffer's address (R175). -/
  | sigOut
  /-- HALT: end the run (R177). -/
  | halt
  /-- INIT: build the cipher state from key and nonce (R100). -/
  | init
  /-- COPY: load the working block from the cipher state (R130). -/
  | copy
  /-- QR a, b, c, d: the quarter round on `W[a]`, `W[b]`, `W[c]`, `W[d]` (R114). -/
  | qr (a b c d : RegIdx)
  /-- ADDS: feed-forward add (R136). -/
  | adds
  /-- SER: serialise to the output buffer (R138). -/
  | ser
  /-- CTRINC: advance the block counter (R140). -/
  | ctrinc
  deriving DecidableEq, Repr

/-- Why an operation word is reserved: the cases of 30_encoding.md R76, in its order. R76 refuses "by name" and names none:
these names, and which one a word reserved for two reasons gets, are DESIGN CHOICE, safe (log 27). -/
inductive Reserved
  /-- `opc` is none of 0x01, 0x02, 0x10, 0x20, 0x21, 0x22, 0x23, 0x24. -/
  | unknownOpcode
  /-- `opc` = 0x01 with `imm8` above 3. -/
  | signalTypeAbove3
  /-- `opc` = 0x01 with a non-zero register field. -/
  | signalRegisterField
  /-- A non-QR operation with a non-zero field. -/
  | nonzeroField
  /-- A QR word with `imm8` non-zero. -/
  | qrImmediate
  /-- A QR word with two equal register fields (41_quarter_round.md R116). -/
  | qrRepeatedIndex
  deriving DecidableEq, Repr

end Sys2Proof
end

