-- ==== Sys2Proof/WellFormed.lean ====
section
/-!
DEFINITION. The one well-formedness check of the operations: the four indices of QR are pairwise distinct
(30_encoding.md R74, R76; 41_quarter_round.md R116).
-/
namespace Sys2Proof

/-- The four indices are pairwise distinct (R74, R116). -/
abbrev DistinctIndices (a b c d : RegIdx) : Prop :=
  a ≠ b ∧ a ≠ c ∧ a ≠ d ∧ b ≠ c ∧ b ≠ d ∧ c ≠ d

/-- The operation is one the encoding admits: only QR has a condition (R76). -/
def Instr.wellFormed : Instr → Bool
  | .sigKey => true
  | .sigNonce => true
  | .sigCount => true
  | .sigOut => true
  | .halt => true
  | .init => true
  | .copy => true
  | .qr a b c d => decide (DistinctIndices a b c d)
  | .adds => true
  | .ser => true
  | .ctrinc => true

end Sys2Proof
end

