-- ==== Sys2Proof/Decode.lean ====
section
/-!
DEFINITION. The operation word `OPW` (30_encoding.md R71 to R76): its fields, the operation map, the decoder (total,
refusing every reserved word by name), the encoder, and the decoder as the opcode table numbers its bits. The core
fetches no words from memory (R70), so a word has no byte order (20_memory.md R44); log 16.
-/
namespace Sys2Proof

/-- `OPW[31:24]`, the operation code (R71). -/
def opc (w : Word) : BitVec 8 := w.extractLsb' 24 8

/-- `OPW[7:0]`, the signal type (R71, R73). -/
def imm8 (w : Word) : BitVec 8 := w.extractLsb' 0 8

/-- The 4-bit register field whose lowest bit is bit `lo` (R71, R74). -/
def regField (lo : Nat) (w : Word) : RegIdx := ⟨(w.extractLsb' lo 4).toNat, (w.extractLsb' lo 4).isLt⟩

/-- `OPW[23:20]`, index `a` of QR. -/
def fieldA (w : Word) : RegIdx := regField 20 w

/-- `OPW[19:16]`, index `b` of QR. -/
def fieldB (w : Word) : RegIdx := regField 16 w

/-- `OPW[15:12]`, index `c` of QR. -/
def fieldC (w : Word) : RegIdx := regField 12 w

/-- `OPW[11:8]`, index `d` of QR. -/
def fieldD (w : Word) : RegIdx := regField 8 w

/-- A word with `opc` = 0x01: the register fields are zero and `imm8` is 0, 1, 2 or 3 (R72, R73, R76). DESIGN CHOICE, safe: a
word reserved for both reasons, such as 0x01000104, is refused under the register field (log 27). -/
def decodeSignal (w : Word) : Except Reserved Instr :=
  if w.extractLsb' 8 16 ≠ 0 then .error .signalRegisterField
  else if imm8 w = 0 then .ok .sigKey
  else if imm8 w = 1 then .ok .sigNonce
  else if imm8 w = 2 then .ok .sigCount
  else if imm8 w = 3 then .ok .sigOut
  else .error .signalTypeAbove3

/-- A word of an operation without fields: bits 23 to 0 are zero (R72, R76). -/
def decodePlain (i : Instr) (w : Word) : Except Reserved Instr :=
  if w.extractLsb' 0 24 = 0 then .ok i else .error .nonzeroField

/-- A word with `opc` = 0x21: `imm8` is zero and the four fields are pairwise distinct (R72, R74, R76). DESIGN CHOICE, safe: a
word reserved for both reasons, such as 0x21000001, is refused under `imm8` (log 27). -/
def decodeQr (w : Word) : Except Reserved Instr :=
  if imm8 w ≠ 0 then .error .qrImmediate
  else if DistinctIndices (fieldA w) (fieldB w) (fieldC w) (fieldD w) then
    .ok (.qr (fieldA w) (fieldB w) (fieldC w) (fieldD w))
  else .error .qrRepeatedIndex

/-- The decoder: the operation of a word, or the reason it is reserved (R72, R76). -/
def decode (w : Word) : Except Reserved Instr :=
  if opc w = 0x01 then decodeSignal w
  else if opc w = 0x02 then decodePlain .halt w
  else if opc w = 0x10 then decodePlain .init w
  else if opc w = 0x20 then decodePlain .copy w
  else if opc w = 0x21 then decodeQr w
  else if opc w = 0x22 then decodePlain .adds w
  else if opc w = 0x23 then decodePlain .ser w
  else if opc w = 0x24 then decodePlain .ctrinc w
  else .error .unknownOpcode

/-- The encoder, from the `match` column of R72 and the formula of 41_quarter_round.md R114. -/
def encode : Instr → Word
  | .sigKey => 0x01000000
  | .sigNonce => 0x01000001
  | .sigCount => 0x01000002
  | .sigOut => 0x01000003
  | .halt => 0x02000000
  | .init => 0x10000000
  | .copy => 0x20000000
  | .qr a b c d =>
    BitVec.ofNat 32 (0x21000000 + a.val * 2 ^ 20 + b.val * 2 ^ 16 + c.val * 2 ^ 12 + d.val * 2 ^ 8)
  | .adds => 0x22000000
  | .ser => 0x23000000
  | .ctrinc => 0x24000000

/-- One row of the operation map R72: a word `w` is the operation iff `w AND mask = match`. -/
structure OpRow where
  mtch : Word
  mask : Word
  deriving DecidableEq, Repr

/-- The word matches the row (R72). -/
def OpRow.matches (r : OpRow) (w : Word) : Bool := w &&& r.mask == r.mtch

/-- The row of R72 for an operation. -/
def rowOf : Instr → OpRow
  | .sigKey => ⟨0x01000000, 0xFFFFFFFF⟩
  | .sigNonce => ⟨0x01000001, 0xFFFFFFFF⟩
  | .sigCount => ⟨0x01000002, 0xFFFFFFFF⟩
  | .sigOut => ⟨0x01000003, 0xFFFFFFFF⟩
  | .halt => ⟨0x02000000, 0xFFFFFFFF⟩
  | .init => ⟨0x10000000, 0xFFFFFFFF⟩
  | .copy => ⟨0x20000000, 0xFFFFFFFF⟩
  | .qr _ _ _ _ => ⟨0x21000000, 0xFF0000FF⟩
  | .adds => ⟨0x22000000, 0xFFFFFFFF⟩
  | .ser => ⟨0x23000000, 0xFFFFFFFF⟩
  | .ctrinc => ⟨0x24000000, 0xFFFFFFFF⟩

/-- The eleven rows of R72, in its order. -/
def opcodeTable : List OpRow :=
  [rowOf .sigKey, rowOf .sigNonce, rowOf .sigCount, rowOf .sigOut, rowOf .halt, rowOf .init, rowOf .copy,
   rowOf (.qr 0 0 0 0), rowOf .adds, rowOf .ser, rowOf .ctrinc]

/-- The word that the low `nbits` bits of `w` give, the bits above them zero. -/
def tableWord (nbits w : Nat) : Nat := w % 2 ^ nbits

/-- The operation the decoder reads from bits numbered as spec/opcode_table.json numbers them; an operation is one
32-bit word (R71), so bits above 31 are no operation. -/
def decodeTableWord (nbits w : Nat) : Option Instr :=
  if tableWord nbits w < 2 ^ 32 then
    match decode (BitVec.ofNat 32 (tableWord nbits w)) with
    | .ok i => some i
    | .error _ => none
  else none

end Sys2Proof
end

