-- ==== Sys2Proof/Machine/State.lean ====
section
/-!
DEFINITION. The state of the core as plain data (10_state.md), what can stop a step, and the state after reset (R26).
-/
namespace Sys2Proof.Machine

/-- The nine values of `top` (10_state.md R17). -/
inductive Top
  | T0
  | T1
  | T2
  | T3
  | T4
  | T5
  | T6
  | T7
  | T8
  deriving DecidableEq, Repr

/-- `chan`, the Host Signal Channel (10_state.md R18). Halt is its own request, not a signal type (30_encoding.md R81). -/
inductive Chan
  | idle
  | pending (type value : Word)
  | pendingHalt
  deriving DecidableEq, Repr

/-- Memory: the bytes that differ from what an unlisted address reads as, addresses strictly rising (20_memory.md R40). -/
abbrev Memory := List Host.Cell

/-- The state of the core. The fields of the spec are `W S N i top t chan` and the three buffers in `mem`
(10_state.md section 1); `params`, `host` and `issue` are the model's own. -/
structure State where
  /-- The working block (R10, R11). -/
  W : RegFile
  /-- The cipher state (R12 to R14). -/
  S : RegFile
  /-- The iteration count (R15). -/
  N : Word
  /-- Blocks completed in this run (R16). -/
  i : Word
  /-- The sequencer position, first half (R17). -/
  top : Top
  /-- The sequencer position, second half: the step of the block micro-program, 0 outside T5 (R17). -/
  t : Fin 84
  /-- The Host Signal Channel (R18). -/
  chan : Chan
  /-- The address space that holds `KEY`, `NONCE` and `OUT` (R19, R20, R21, R40). -/
  mem : Memory
  /-- Static configuration, changed by no operation (R23); log 5. -/
  params : Params
  /-- The words the host will respond with, oldest first: inputs of the response halves (R171); log 2. -/
  host : List Word
  /-- An operation word that stands in place of the scheduled one for the next operation, or none; log 7. -/
  issue : Option Word
  deriving DecidableEq, Repr

/-- Why the machine stops with a fault. The spec gives the core no exception (60_exceptions.md R190). -/
inductive Fault
  /-- Raised by INIT and SER when a buffer they use does not lie inside the 2^32-byte address space (20_memory.md
  R40, R43). Safe: the model stops where the spec admits no launch; `step` never raises it (log 18). -/
  | addressOutsideSpace
  deriving DecidableEq, Repr

/-- Why an operation or a launch is refused (60_exceptions.md R200). -/
inductive Refusal
  /-- Raised by an arm of `exec` whose operation has no meaning yet. No arm is left. Safe. -/
  | notModelled (mnemonic : String)
  /-- Raised by `step` and `launch` when the buffer addresses break a premise of 20_memory.md R43. Safe (log 6). -/
  | launchPremise
  /-- Raised by `step` for an operation word that decodes to nothing (30_encoding.md R76). Safe: the fixed schedule
  holds no reserved word. -/
  | reservedWord (why : Reserved)
  /-- Raised by QR with two equal indices (41_quarter_round.md R116). Safe: no word decodes to such a QR (log 15). -/
  | repeatedIndex
  deriving DecidableEq, Repr

/-- A register file of zeros. -/
def zeroFile : RegFile := #v[0, 0, 0, 0, 0, 0, 0, 0, 0, 0, 0, 0, 0, 0, 0, 0]

/-- The state after reset (10_state.md R26, 70_reset_and_hazards.md R220): position T0, channel idle, `OUT` all zero
(memory with nothing listed). DESIGN CHOICE, unsafe: `S`, `W`, `N`, `i` are zero (log 3), the buffer addresses are those
of 95_test_vectors.md section 8 (log 5). DESIGN CHOICE, safe: no response is there yet (log 2), nothing is issued (log 7). -/
def State.reset : State where
  W := zeroFile
  S := zeroFile
  N := 0
  i := 0
  top := .T0
  t := 0
  chan := .idle
  mem := []
  params := { keyAddr := 0x03000000, nonceAddr := 0x03000020, outAddr := 0x03000040, byteOrder := .little }
  host := []
  issue := none

/-- `s` with working block `v`. -/
def State.setW (s : State) (v : RegFile) : State := { s with W := v }

/-- `s` with cipher state `v`. -/
def State.setS (s : State) (v : RegFile) : State := { s with S := v }

/-- `s` with iteration count `v`. -/
def State.setN (s : State) (v : Word) : State := { s with N := v }

/-- `s` with `v` completed blocks. -/
def State.setI (s : State) (v : Word) : State := { s with i := v }

/-- `s` with `top` at `p`. -/
def State.setTop (s : State) (p : Top) : State := { s with top := p }

/-- `s` with `t` at `k`. -/
def State.setT (s : State) (k : Fin 84) : State := { s with t := k }

/-- `s` with channel `c`. -/
def State.setChan (s : State) (c : Chan) : State := { s with chan := c }

/-- `s` with memory `m`. -/
def State.setMem (s : State) (m : Memory) : State := { s with mem := m }

/-- `s` on the platform `p`. -/
def State.setParams (s : State) (p : Params) : State := { s with params := p }

/-- `s` with the responses `l` still to come. -/
def State.setHost (s : State) (l : List Word) : State := { s with host := l }

/-- `s` with the issued operation word `w`. -/
def State.setIssue (s : State) (w : Option Word) : State := { s with issue := w }

end Sys2Proof.Machine
end

