-- ==== Sys2Proof/Machine/Operands.lean ====
section
/-!
DEFINITION. The word primitives (41_quarter_round.md R110 to R112), the register operands (30_encoding.md R74) and the
byte order of memory operands (20_memory.md R45, R47).
-/
namespace Sys2Proof.Machine

/-- `add32`: the sum modulo 2^32 (R110). -/
def add32 (x y : Word) : Word := x + y

/-- `xor32`: bitwise exclusive-or (R111). -/
def xor32 (x y : Word) : Word := x ^^^ y

/-- `rotl32`: circular left rotation of 32 bits, `0 <= r <= 31` (R112). -/
def rotl32 (x : Word) (r : Nat) : Word := x.rotateLeft r

/-- Read a register of a file. No register has an alias or a hardwired value (R10). -/
def regRead (v : RegFile) (a : RegIdx) : Word := v[a.val]

/-- Write a register of a file: that register and no other (R10). -/
def regWrite (v : RegFile) (a : RegIdx) (x : Word) : RegFile := v.set a.val x

/-- The file whose register `k` is `f k`, for an operation that writes all sixteen. -/
def regBuild (f : RegIdx → Word) : RegFile :=
  #v[f 0, f 1, f 2, f 3, f 4, f 5, f 6, f 7, f 8, f 9, f 10, f 11, f 12, f 13, f 14, f 15]

/-- `le32(b0, b1, b2, b3)`: four bytes, lowest address first, as a little-endian word, whatever HOST_BYTE_ORDER is (R45). -/
def le32 (b0 b1 b2 b3 : Byte) : Word :=
  BitVec.ofNat 32 (b0.toNat + 256 * b1.toNat + 65536 * b2.toNat + 16777216 * b3.toNat)

/-- Byte `k` of a word: bits `8k + 7` to `8k`. -/
def byteOf (v : Word) (k : Nat) : Byte := v.extractLsb' (8 * k) 8

/-- `ser32(v)`: the four bytes of a word, lowest address first, in the order HOST_BYTE_ORDER gives them (R47). The `big`
line is PRESUMED (general knowledge, 92_eei_decisions.md D31), unsafe: log 19. -/
def ser32 (order : ByteOrder) (v : Word) : List Byte :=
  match order with
  | .little => [byteOf v 0, byteOf v 1, byteOf v 2, byteOf v 3]
  | .big => [byteOf v 3, byteOf v 2, byteOf v 1, byteOf v 0]

/-- `ser32` of the sixteen words of a file, word 0 first (42_block_compressor.md R138). -/
def serFile (order : ByteOrder) (v : RegFile) : List Byte := v.toList.flatMap (ser32 order)

end Sys2Proof.Machine
end

