-- ==== Sys2Proof/Machine/Flags.lean ====
section
/-!
DEFINITION. The core has no flags, condition codes or predicates (10_state.md R22). The one condition it ever tests is
the loop test of the sequencer, computed when needed and stored nowhere (R22, 43_keystream_driver.md R153).
-/
namespace Sys2Proof.Machine

/-- The loop test `i < N`, unsigned (R15, R16, R153, R154). -/
def loopTest (s : State) : Bool := s.i.ult s.N

end Sys2Proof.Machine
end

