-- ==== Sys2Proof/Machine/Ops.lean ====
section
/-!
DEFINITION. The named operations over memory (20_memory.md), over an outcome, and the core's traps to the host: issuing a
request is the trap entry (60_exceptions.md R196). The trap return, `respond`, moves the sequencer and is in
Machine/Sequencer.lean.
-/
namespace Sys2Proof.Machine

/-- What an unlisted address reads as. The spec's reset value for `OUT` (10_state.md R26). DESIGN CHOICE, unsafe, for
every other address: the spec gives no contents (log 4). -/
def unlistedByte : Byte := 0

/-- `MemRead(addr, 1)`: the byte held at an address; it changes nothing (R48). -/
def memRead : Memory → Nat → Byte
  | [], _ => unlistedByte
  | (b, v) :: m, a => if a = b then v else memRead m a

/-- `MemWrite(addr, 1, v)`: the byte at an address becomes `v` and no other byte changes (R49). Keeps the canonical form. -/
def memWrite : Memory → Nat → Byte → Memory
  | [], a, v => if v = unlistedByte then [] else [(a, v)]
  | (b, w) :: m, a, v =>
    if a < b then (if v = unlistedByte then (b, w) :: m else (a, v) :: (b, w) :: m)
    else if a = b then (if v = unlistedByte then m else (a, v) :: m)
    else (b, w) :: memWrite m a v

/-- `MemWrite` of the bytes of a list at increasing addresses from `a`. -/
def memWriteList : Memory → Nat → List Byte → Memory
  | m, _, [] => m
  | m, a, v :: vs => memWriteList (memWrite m a v) (a + 1) vs

/-- The canonical form: addresses inside the space and strictly rising, no entry equal to an unlisted byte. -/
def Memory.wf : Memory → Bool
  | [] => true
  | (a, v) :: m =>
    decide (a < Config.addressSpace) && (v != unlistedByte && (m.all (fun c => decide (a < c.1)) && Memory.wf m))

/-- A buffer of `len` bytes at `base` lies inside the address space (R40, R43 premise 1). -/
def inSpace (base : Word) (len : Nat) : Bool := decide (base.toNat + len ≤ Config.addressSpace)

/-- The little-endian word in the four bytes at `a` (R45). -/
def memReadLe32 (m : Memory) (a : Nat) : Word :=
  le32 (memRead m a) (memRead m (a + 1)) (memRead m (a + 2)) (memRead m (a + 3))

/-- TRAP ENTRY, the issue half of every SIG operation: `chan <- pending(type, value)` and nothing else changes
(44_host_signal_channel.md R170, 60_exceptions.md R196). -/
def issueRequest (type value : Word) (s : State) : State := s.setChan (.pending type value)

/-- TRAP ENTRY of HALT: `chan <- pending_halt; top <- T8` (44_host_signal_channel.md R177, 60_exceptions.md R196). -/
def issueHalt (s : State) : State := (s.setChan .pendingHalt).setTop .T8

/-- Apply `f` to the next state of an outcome; a fault or a refusal stays as it is. -/
def mapNext (f : State → State) : Host.Outcome State Fault Refusal → Host.Outcome State Fault Refusal
  | .next s => .next (f s)
  | .fault r => .fault r
  | .refused r => .refused r

end Sys2Proof.Machine
end

