-- ==== Sys2Proof/Machine/QuarterRound.lean ====
section
/-!
DEFINITION. The Quarter-Round Mixer (41_quarter_round.md): the ARX stage, the quarter round on a register file, the same
as a function of four words, its inverse, and the meaning of QR.
-/
namespace Sys2Proof.Machine

/-- `ARX(x, y, z, r)`: add, exclusive-or with the sum just written, rotate, in this order (R113). -/
def arx (x y z : RegIdx) (r : Nat) (v : RegFile) : RegFile :=
  let v1 := regWrite v x (add32 (regRead v x) (regRead v y))
  let v2 := regWrite v1 z (xor32 (regRead v1 z) (regRead v1 x))
  regWrite v2 z (rotl32 (regRead v2 z) r)

/-- The quarter round on registers `a`, `b`, `c`, `d`: four ARX stages in strict order (R114, R115). -/
def quarterRound (a b c d : RegIdx) (v : RegFile) : RegFile :=
  arx c d b 7 (arx a b d 8 (arx c d b 12 (arx a b d 16 v)))

/-- Four words `(a, b, c, d)` of a quarter round. -/
structure Quad where
  a : Word
  b : Word
  c : Word
  d : Word
  deriving DecidableEq, Repr

/-- The quarter round as a function of the four input words (R114, R122). -/
def quarterWords (q : Quad) : Quad :=
  let a1 := add32 q.a q.b
  let d1 := rotl32 (xor32 q.d a1) 16
  let c1 := add32 q.c d1
  let b1 := rotl32 (xor32 q.b c1) 12
  let a2 := add32 a1 b1
  let d2 := rotl32 (xor32 d1 a2) 8
  let c2 := add32 c1 d2
  let b2 := rotl32 (xor32 b1 c2) 7
  { a := a2, b := b2, c := c2, d := d2 }

/-- The inverse of the quarter round (R118). The core never computes it. -/
def quarterInverse (q : Quad) : Quad :=
  let b1 := xor32 (rotl32 q.b 25) q.c
  let c1 := q.c - q.d
  let d1 := xor32 (rotl32 q.d 24) q.a
  let a1 := q.a - b1
  let b0 := xor32 (rotl32 b1 20) c1
  let c0 := c1 - d1
  let d0 := xor32 (rotl32 d1 16) a1
  let a0 := a1 - b0
  { a := a0, b := b0, c := c0, d := d0 }

/-- The four words that registers `a`, `b`, `c`, `d` hold. -/
def quadOf (a b c d : RegIdx) (v : RegFile) : Quad :=
  { a := regRead v a, b := regRead v b, c := regRead v c, d := regRead v d }

/-- QR a, b, c, d: the quarter round on `W` (R114). With two equal indices it is refused and the pseudocode is not run on
aliased registers (R116). -/
def execQr (a b c d : RegIdx) (s : State) : Host.Outcome State Fault Refusal :=
  if DistinctIndices a b c d then .next (s.setW (quarterRound a b c d s.W)) else .refused .repeatedIndex

end Sys2Proof.Machine
end

