-- ==== Sys2Proof/Machine/Block.lean ====
section
/-!
DEFINITION. The Block Compressor's own operations (42_block_compressor.md): COPY, ADDS, SER, CTRINC.
-/
namespace Sys2Proof.Machine

/-- COPY: `W[k] <- S[k]` for every `k` (R130). -/
def execCopy (s : State) : Host.Outcome State Fault Refusal := .next (s.setW (regBuild (fun k => regRead s.S k)))

/-- The elementwise sum of two files, each word modulo 2^32, no carry between words (R136, R137). -/
def addFiles (v w : RegFile) : RegFile := regBuild (fun k => add32 (regRead v k) (regRead w k))

/-- ADDS: `W[k] <- add32(W[k], S[k])` for every `k` (R136). The output words stay in `W`: DESIGN CHOICE of the spec
(92_eei_decisions.md D13), safe, log 14. -/
def execAdds (s : State) : Host.Outcome State Fault Refusal := .next (s.setW (addFiles s.W s.S))

/-- SER: the sixteen words of `W` to the 64 bytes of `OUT` in HOST_BYTE_ORDER (R138, R139). -/
def execSer (s : State) : Host.Outcome State Fault Refusal :=
  if inSpace s.params.outAddr Config.outBytes then
    .next (s.setMem (memWriteList s.mem s.params.outAddr.toNat (serFile s.params.byteOrder s.W)))
  else .fault .addressOutsideSpace

/-- The block counter plus one modulo 2^32, every other word as it was (R140). -/
def counterNext (v : RegFile) : RegFile := regWrite v 12 (add32 (regRead v 12) 1)

/-- CTRINC: `S[12] <- add32(S[12], 1)` (R140). -/
def execCtrinc (s : State) : Host.Outcome State Fault Refusal := .next (s.setS (counterNext s.S))

end Sys2Proof.Machine
end

