-- ==== Sys2Proof/Machine/Init.lean ====
section
/-!
DEFINITION. The State Model initialiser INIT (40_state_init.md).
-/
namespace Sys2Proof.Machine

/-- The four sigma constants, `S[0]` to `S[3]` (10_state.md R12, 40_state_init.md R100). -/
def sigma : Fin 4 → Word
  | 0 => 0x61707865
  | 1 => 0x3320646e
  | 2 => 0x79622d32
  | 3 => 0x6b206574

/-- The value INIT gives the block counter `S[12]` (10_state.md R14, 40_state_init.md R100). -/
def counterInit : Word := 0x00000001

/-- The cipher state for the key at address `k` and the nonce at address `n` of a memory (R100, R101). -/
def initFile (m : Memory) (k n : Nat) : RegFile :=
  #v[sigma 0, sigma 1, sigma 2, sigma 3,
     memReadLe32 m k, memReadLe32 m (k + 4), memReadLe32 m (k + 8), memReadLe32 m (k + 12),
     memReadLe32 m (k + 16), memReadLe32 m (k + 20), memReadLe32 m (k + 24), memReadLe32 m (k + 28),
     counterInit, memReadLe32 m n, memReadLe32 m (n + 4), memReadLe32 m (n + 8)]

/-- INIT: `S` from sigma, the key bytes, 1 and the nonce bytes (R100). `i <- 0` is the sequencer's (R152), not INIT's. -/
def execInit (s : State) : Host.Outcome State Fault Refusal :=
  if inSpace s.params.keyAddr Config.keyBytes && inSpace s.params.nonceAddr Config.nonceBytes then
    .next (s.setS (initFile s.mem s.params.keyAddr.toNat s.params.nonceAddr.toNat))
  else .fault .addressOutsideSpace

end Sys2Proof.Machine
end

