-- ==== Sys2Proof/Machine/Signal.lean ====
section
/-!
DEFINITION. The Host Signal Channel (44_host_signal_channel.md): the meanings of the four SIG operations and of HALT, and
the effect of a response. Each SIG operation is performed in two halves (R170): the meaning is the issue half; the response
half is `responseEffect` inside `respond` (Machine/Sequencer.lean).
-/
namespace Sys2Proof.Machine

/-- SIG.KEY: `signal(0, KEY_ADDR)` (R172). -/
def execSigKey (s : State) : Host.Outcome State Fault Refusal := .next (issueRequest 0 s.params.keyAddr s)

/-- SIG.NONCE: `signal(1, NONCE_ADDR)` (R173). -/
def execSigNonce (s : State) : Host.Outcome State Fault Refusal := .next (issueRequest 1 s.params.nonceAddr s)

/-- SIG.COUNT: `signal(2, 0)` (R174). -/
def execSigCount (s : State) : Host.Outcome State Fault Refusal := .next (issueRequest 2 0 s)

/-- SIG.OUT: `signal(3, OUT_ADDR)` (R175). -/
def execSigOut (s : State) : Host.Outcome State Fault Refusal := .next (issueRequest 3 s.params.outAddr s)

/-- HALT: `chan <- pending_halt; top <- T8` (R177). -/
def execHalt (s : State) : Host.Outcome State Fault Refusal := .next (issueHalt s)

/-- The operation's own effect on the response `r` to a signal of this type: only SIG.COUNT (type 2) has one, `N <- r`,
all 32 bits, every value accepted (R170, R174, R176; 10_state.md R15). -/
def responseEffect (type r : Word) (s : State) : State := if type = 2 then s.setN r else s

end Sys2Proof.Machine
end

