-- ==== Sys2Proof/Machine/Dispatch.lean ====
section
/-!
DEFINITION. The one match from an operation to its meaning.
-/
namespace Sys2Proof.Machine

/-- Perform the operation `i` at the state `s` (the issue half of a SIG operation). -/
def exec (i : Instr) (s : State) : Host.Outcome State Fault Refusal :=
  match i with
  | .sigKey => Sys2Proof.Machine.execSigKey s
  | .sigNonce => Sys2Proof.Machine.execSigNonce s
  | .sigCount => Sys2Proof.Machine.execSigCount s
  | .sigOut => Sys2Proof.Machine.execSigOut s
  | .halt => Sys2Proof.Machine.execHalt s
  | .init => Sys2Proof.Machine.execInit s
  | .copy => Sys2Proof.Machine.execCopy s
  | .qr a b c d => Sys2Proof.Machine.execQr a b c d s
  | .adds => Sys2Proof.Machine.execAdds s
  | .ser => Sys2Proof.Machine.execSer s
  | .ctrinc => Sys2Proof.Machine.execCtrinc s

end Sys2Proof.Machine
end

