-- ==== Sys2Proof/Machine/Launch.lean ====
section
/-!
DEFINITION. The start of a run (70_reset_and_hazards.md R220 to R223): the launch premises on the buffer addresses
(20_memory.md R43), the host's writes of key and nonce, and the state in which the core leaves reset.
-/
namespace Sys2Proof.Machine

/-- The byte ranges `[a, a + m)` and `[b, b + n)` do not overlap. -/
def disjointRanges (a m b n : Nat) : Bool := decide (a + m ≤ b) || decide (b + n ≤ a)

/-- The three launch premises of R43: no wrap, pairwise disjoint, bases multiples of 4. -/
def admissible (p : Params) : Bool :=
  (inSpace p.keyAddr Config.keyBytes && inSpace p.nonceAddr Config.nonceBytes && inSpace p.outAddr Config.outBytes) &&
  (disjointRanges p.keyAddr.toNat Config.keyBytes p.nonceAddr.toNat Config.nonceBytes &&
   disjointRanges p.keyAddr.toNat Config.keyBytes p.outAddr.toNat Config.outBytes &&
   disjointRanges p.nonceAddr.toNat Config.nonceBytes p.outAddr.toNat Config.outBytes) &&
  (decide (p.keyAddr.toNat % 4 = 0) && decide (p.nonceAddr.toNat % 4 = 0) && decide (p.outAddr.toNat % 4 = 0))

/-- The state in which the core leaves reset on platform `p` after the host wrote the 32 key bytes and the 12 nonce bytes
(R222), with the host's responses to come. `OUT` is as reset leaves it, all zero (10_state.md R26). -/
def launchState (p : Params) (key : Vector Byte 32) (nonce : Vector Byte 12) (responses : List Word) : State :=
  ((State.reset.setParams p).setHost responses).setMem
    (memWriteList (memWriteList [] p.keyAddr.toNat key.toList) p.nonceAddr.toNat nonce.toList)

/-- A reset of a core that is in any state, Halted included (70_reset_and_hazards.md R220, 10_state.md R27): every piece of
core state goes to its reset value, `OUT` to zero, the rest of memory keeps what the host wrote. Reset is outside the Host
Signal Channel (44_host_signal_channel.md R184), so `step` never performs it. -/
def applyReset (s : State) : State :=
  ((State.reset.setParams s.params).setHost s.host).setMem
    (memWriteList s.mem s.params.outAddr.toNat (List.replicate Config.outBytes unlistedByte))

/-- A launch: refused when the addresses break a premise (R43, 60_exceptions.md R200), else the state of `launchState`. -/
def launch (p : Params) (key : Vector Byte 32) (nonce : Vector Byte 12) (responses : List Word) :
    Host.Outcome State Fault Refusal :=
  if admissible p then .next (launchState p key nonce responses) else .refused .launchPremise

end Sys2Proof.Machine
end

