-- ==== Sys2Proof/Machine/Sequencer.lean ====
section
/-!
DEFINITION. The Keystream Driver's sequencer: the fixed schedule (30_encoding.md R77 to R79), the operation held at the
current position, how the position advances (43_keystream_driver.md R150 to R156), and the response half of a signal
(44_host_signal_channel.md R170), which is the core's trap return (60_exceptions.md R197).
-/
namespace Sys2Proof.Machine

/-- The operation words of the eight index groups of a double round, in order (R79). -/
def groupWords : Vector Word 8 :=
  #v[0x21048C00, 0x21159D00, 0x2126AE00, 0x2137BF00, 0x2105AF00, 0x2116BC00, 0x21278D00, 0x21349E00]

/-- The block micro-program: the operation word at step `t` (R78, R79). -/
def microWord (t : Fin 84) : Word :=
  if t.val = 0 then 0x20000000
  else if t.val ≤ 80 then groupWords[(t.val - 1) % 8]
  else if t.val = 81 then 0x22000000
  else if t.val = 82 then 0x23000000
  else 0x24000000

/-- The top-level schedule: the operation word held at a position, none at the terminal position (R77). -/
def scheduleWord (top : Top) (t : Fin 84) : Option Word :=
  match top with
  | .T0 => some 0x01000000
  | .T1 => some 0x01000001
  | .T2 => some 0x01000002
  | .T3 => some 0x10000000
  | .T4 => some 0x01000003
  | .T5 => some (microWord t)
  | .T6 => some 0x01000003
  | .T7 => some 0x02000000
  | .T8 => none

/-- The word of the next operation: the scheduled one (10_state.md R17), unless a word has been put in its place (log 7). -/
def fetchWord (s : State) : Option Word :=
  match s.issue with
  | some w => some w
  | none => scheduleWord s.top s.t

/-- The loop test before a block: the first operation of the block if `i < N`, else past the loop (R153, R154). -/
def enterLoop (s : State) : State := if loopTest s then (s.setTop .T5).setT 0 else (s.setTop .T6).setT 0

/-- Move the position past the operation performed at T5: the next step of the block, or, after CTRINC, count the block
and test the loop again (R154). -/
def advanceBlock (s : State) : State :=
  if h : s.t.val < 83 then s.setT ⟨s.t.val + 1, by omega⟩ else enterLoop (s.setI (add32 s.i 1))

/-- Move the position past the operation just completed (R151 to R156). INIT's step also sets `i <- 0` (R152). HALT sets
T8 itself; T8 holds no operation. -/
def advance (s : State) : State :=
  match s.top with
  | .T0 => s.setTop .T1
  | .T1 => s.setTop .T2
  | .T2 => s.setTop .T3
  | .T3 => (s.setI 0).setTop .T4
  | .T4 => enterLoop s
  | .T5 => advanceBlock s
  | .T6 => s.setTop .T7
  | .T7 => s.setTop .T8
  | .T8 => s

/-- TRAP RETURN, the response half: the host returns `r`; `chan <- idle`; the operation's own effect on `r`; the position
advances (R170, R197). With no signal pending there is nothing to respond to. -/
def respond (r : Word) (s : State) : State :=
  match s.chan with
  | .pending type _ => advance (responseEffect type r (s.setChan .idle))
  | .idle => s
  | .pendingHalt => s

/-- A step while a signal is pending: the host's next word answers it; with none there, the core stays blocked and its
state does not change (R170, R179; 60_exceptions.md R199). DESIGN CHOICE, safe: log 1, log 2. -/
def awaitResponse (s : State) : State :=
  match s.host with
  | [] => s
  | r :: rest => respond r (s.setHost rest)

/-- After the meaning of an operation: the issued word is used up; a datapath operation is complete and the position
moves, while a SIG operation waits at its position for the response and HALT has set T8 (R150 to R156, R170). -/
def complete (s : State) : State :=
  match s.chan with
  | .idle => advance (s.setIssue none)
  | .pending _ _ => s.setIssue none
  | .pendingHalt => s.setIssue none

end Sys2Proof.Machine
end

