-- ==== Sys2Proof/Machine/Step.lean ====
section
/-!
DEFINITION. One step of the core (43_keystream_driver.md section 1): perform the operation held at the current position,
then move the position; while a signal is pending, the response half; at the terminal position, nothing.
-/
namespace Sys2Proof.Machine

/-- Decode an operation word, perform the operation, then move the position; a reserved word is refused by name (R76). -/
def runWord (w : Word) (s : State) : Host.Outcome State Fault Refusal :=
  match decode w with
  | .error e => .refused (.reservedWord e)
  | .ok i => mapNext complete (exec i s)

/-- One step. A platform whose addresses break a launch premise is refused (20_memory.md R43, log 6). After the halt
request, and at T8, the core has no step: the state stays as it is (43_keystream_driver.md R156, log 1). -/
def step (s : State) : Host.Outcome State Fault Refusal :=
  if admissible s.params then
    match s.chan with
    | .pendingHalt => .next s
    | .pending _ _ => .next (awaitResponse s)
    | .idle =>
      match fetchWord s with
      | none => .next s
      | some w => runWord w s
  else .refused .launchPremise

/-- `s` with the operation word given by the low `nbits` bits of `w` put where `step` takes its next operation: in place of
the scheduled one, with no request pending (log 7). -/
def State.withFetchWord (s : State) (nbits w : Nat) : State :=
  (s.setChan .idle).setIssue (some (BitVec.ofNat 32 (tableWord nbits w)))

end Sys2Proof.Machine
end

