-- ==== Sys2Proof/Machine/Pseudo.lean ====
section
/-!
DEFINITION. The pseudo-operations (30_encoding.md R84): their expansions into operations, and the functions of a register
file that 42_block_compressor.md R131 to R134, R137 and R142 give them.
-/
namespace Sys2Proof.Machine

/-- COLROUND (R131). -/
def colRoundOps : List Instr := [.qr 0 4 8 12, .qr 1 5 9 13, .qr 2 6 10 14, .qr 3 7 11 15]

/-- DIAGROUND (R132). -/
def diagRoundOps : List Instr := [.qr 0 5 10 15, .qr 1 6 11 12, .qr 2 7 8 13, .qr 3 4 9 14]

/-- DROUND: COLROUND then DIAGROUND (R133). -/
def dRoundOps : List Instr := colRoundOps ++ diagRoundOps

/-- A list of operations `n` times in a row. -/
def repeatOps : Nat → List Instr → List Instr
  | 0, _ => []
  | n + 1, l => l ++ repeatOps n l

/-- ROUNDS20: DROUND ten times (R134). -/
def rounds20Ops : List Instr := repeatOps 10 dRoundOps

/-- BLOCK: COPY; ROUNDS20; ADDS; SER; CTRINC (R142). -/
def blockOps : List Instr := .copy :: (rounds20Ops ++ [.adds, .ser, .ctrinc])

/-- RUN with iteration count `n` (43_keystream_driver.md R160). -/
def runOps (n : Nat) : List Instr :=
  [.sigKey, .sigNonce, .sigCount, .init, .sigOut] ++ (repeatOps n blockOps ++ [.sigOut, .halt])

/-- The column round as a function of the working block (R131). -/
def colRound (v : RegFile) : RegFile :=
  quarterRound 3 7 11 15 (quarterRound 2 6 10 14 (quarterRound 1 5 9 13 (quarterRound 0 4 8 12 v)))

/-- The diagonal round as a function of the working block (R132). -/
def diagRound (v : RegFile) : RegFile :=
  quarterRound 3 4 9 14 (quarterRound 2 7 8 13 (quarterRound 1 6 11 12 (quarterRound 0 5 10 15 v)))

/-- The double round (R133). -/
def doubleRound (v : RegFile) : RegFile := diagRound (colRound v)

/-- `n` double rounds. -/
def doubleRounds : Nat → RegFile → RegFile
  | 0, v => v
  | n + 1, v => doubleRounds n (doubleRound v)

/-- ROUNDS20 as a function of the working block: ten double rounds (R134). -/
def rounds20 (v : RegFile) : RegFile := doubleRounds 10 v

/-- The quarter round of slot `g` of a double round (30_encoding.md R79). -/
def slotRound (g : Nat) (v : RegFile) : RegFile :=
  match g with
  | 0 => quarterRound 0 4 8 12 v
  | 1 => quarterRound 1 5 9 13 v
  | 2 => quarterRound 2 6 10 14 v
  | 3 => quarterRound 3 7 11 15 v
  | 4 => quarterRound 0 5 10 15 v
  | 5 => quarterRound 1 6 11 12 v
  | 6 => quarterRound 2 7 8 13 v
  | _ => quarterRound 3 4 9 14 v

/-- The first `n` of the 80 quarter rounds of a block, slot `k mod 8` for the `k`-th from 0 (R78, R79). -/
def firstRounds : Nat → RegFile → RegFile
  | 0, v => v
  | n + 1, v => slotRound (n % 8) (firstRounds n v)

/-- The output words of a block from the cipher state: `O[k] = add32(ROUNDS20(S)[k], S[k])` (R137). -/
def blockWords (v : RegFile) : RegFile := addFiles (rounds20 v) v

/-- The 64 bytes of a block from the cipher state (R142). -/
def blockBytes (order : ByteOrder) (v : RegFile) : List Byte := serFile order (blockWords v)

/-- The cipher state with its counter word replaced (43_keystream_driver.md R158, 42_block_compressor.md R143). -/
def withCounter (v : RegFile) (c : Word) : RegFile := regWrite v 12 c

end Sys2Proof.Machine
end

