-- ==== Sys2Proof/Machine/Assembler.lean ====
section
/-!
DEFINITION. The assembler syntax of 30_encoding.md R83 with the pseudo-operations of R84: lines of characters to
operations. The syntax is the spec's own (92_eei_decisions.md D4) and has no counterpart in the hardware.
-/
namespace Sys2Proof.Machine

/-- A line of program text. -/
abbrev Line := List Char

/-- A blank inside a line. -/
def isBlank (c : Char) : Bool := c == ' ' || c == '\t'

/-- A comment starts with `;` and runs to the end of the line (R83). -/
def stripComment (l : Line) : Line := l.takeWhile (fun c => c != ';')

/-- A line without the blanks at its two ends. -/
def trimLine (l : Line) : Line := ((l.dropWhile isBlank).reverse.dropWhile isBlank).reverse

/-- The pieces of a line between commas. -/
def splitCommas : Line → List Line
  | [] => [[]]
  | c :: cs =>
    if c = ',' then [] :: splitCommas cs
    else
      match splitCommas cs with
      | [] => [[c]]
      | p :: ps => (c :: p) :: ps

/-- The value of one decimal digit. -/
def digitValue (c : Char) : Option Nat := if '0' ≤ c ∧ c ≤ '9' then some (c.toNat - '0'.toNat) else none

/-- A decimal number with digits to come and value so far. -/
def decimalFrom : Nat → Line → Option Nat
  | n, [] => some n
  | n, c :: cs => (digitValue c).bind (fun d => decimalFrom (10 * n + d) cs)

/-- A decimal number: at least one digit and nothing else. -/
def decimal (l : Line) : Option Nat := if l = [] then none else decimalFrom 0 l

/-- A register operand: a decimal number 0 to 15 (R83). -/
def regOperand (l : Line) : Option RegIdx :=
  match decimal (trimLine l) with
  | some n => if h : n < 16 then some ⟨n, h⟩ else none
  | none => none

/-- The four operands of QR; they must be pairwise distinct (R76, R83). -/
def qrOperands (l : Line) : Option (List Instr) :=
  match (splitCommas l).map regOperand with
  | [some a, some b, some c, some d] => if DistinctIndices a b c d then some [.qr a b c d] else none
  | _ => none

/-- Mnemonics that take no operands, in capitals (R83), each with the operations it stands for; a pseudo-operation stands
for its expansion (R84). RUN needs an iteration count and is `runOps`. -/
def mnemonics : List (Line × List Instr) :=
  [(['S', 'I', 'G', '.', 'K', 'E', 'Y'], [.sigKey]),
   (['S', 'I', 'G', '.', 'N', 'O', 'N', 'C', 'E'], [.sigNonce]),
   (['S', 'I', 'G', '.', 'C', 'O', 'U', 'N', 'T'], [.sigCount]),
   (['S', 'I', 'G', '.', 'O', 'U', 'T'], [.sigOut]),
   (['H', 'A', 'L', 'T'], [.halt]),
   (['I', 'N', 'I', 'T'], [.init]),
   (['C', 'O', 'P', 'Y'], [.copy]),
   (['A', 'D', 'D', 'S'], [.adds]),
   (['S', 'E', 'R'], [.ser]),
   (['C', 'T', 'R', 'I', 'N', 'C'], [.ctrinc]),
   (['C', 'O', 'L', 'R', 'O', 'U', 'N', 'D'], colRoundOps),
   (['D', 'I', 'A', 'G', 'R', 'O', 'U', 'N', 'D'], diagRoundOps),
   (['D', 'R', 'O', 'U', 'N', 'D'], dRoundOps),
   (['R', 'O', 'U', 'N', 'D', 'S', '2', '0'], rounds20Ops),
   (['B', 'L', 'O', 'C', 'K'], blockOps)]

/-- What one line of program text says (R83). -/
inductive LineKind
  | empty
  | ops (l : List Instr)
  | rept (n : Nat)
  | endr
  | unknown
  deriving DecidableEq, Repr

/-- Read one line: a mnemonic, then operands. -/
def readLine (l : Line) : LineKind :=
  let l := trimLine (stripComment l)
  let name := l.takeWhile (fun c => !isBlank c)
  let rest := trimLine (l.dropWhile (fun c => !isBlank c))
  if l = [] then .empty
  else if name = ['.', 'e', 'n', 'd', 'r'] then (if rest = [] then .endr else .unknown)
  else if name = ['.', 'r', 'e', 'p', 't'] then
    match decimal rest with
    | some n => .rept n
    | none => .unknown
  else if name = ['Q', 'R'] then
    match qrOperands rest with
    | some ops => .ops ops
    | none => .unknown
  else if rest ≠ [] then .unknown
  else
    match mnemonics.find? (fun m => m.1 = name) with
    | some m => .ops m.2
    | none => .unknown

/-- Assemble lines: `outer` holds the open `.rept` counts with the operations before each, `done` the operations so far. -/
def assembleFrom : List (Nat × List Instr) → List Instr → List Line → Option (List Instr)
  | outer, done, [] => if outer.isEmpty then some done else none
  | outer, done, l :: ls =>
    match readLine l with
    | .empty => assembleFrom outer done ls
    | .ops is => assembleFrom outer (done ++ is) ls
    | .rept n => assembleFrom ((n, done) :: outer) [] ls
    | .endr =>
      match outer with
      | [] => none
      | (n, before) :: rest => assembleFrom rest (before ++ repeatOps n done) ls
    | .unknown => none

/-- The operations of a program text, or none if a line is not of the syntax (R83). -/
def assemble (ls : List Line) : Option (List Instr) := assembleFrom [] [] ls

end Sys2Proof.Machine
end

