-- ==== Sys2Proof/Machine/HostView.lean ====
section
/-!
DEFINITION. What the host sees of the core: the requests it receives (30_encoding.md R80, R81) and the bytes it reads
(20_memory.md R55, 44_host_signal_channel.md R180, R182). The host sees nothing else (R184).
-/
namespace Sys2Proof.Machine

/-- A request as the host receives it: a signal with two words, or halt with its fixed trap code (R80, R81). -/
inductive HostMessage
  | signal (type value : Word)
  | halt (trapCode : Nat)
  deriving DecidableEq, Repr

/-- What the host has received and not answered (R18, R80, R81). HALT_CODE is a free value (log 12). -/
def hostReceives (s : State) : Option HostMessage :=
  match s.chan with
  | .idle => none
  | .pending type value => some (.signal type value)
  | .pendingHalt => some (.halt Config.haltCode)

/-- The address lies in `OUT` (R41). -/
def inOut (p : Params) (a : Nat) : Bool := decide (p.outAddr.toNat ≤ a) && decide (a < p.outAddr.toNat + Config.outBytes)

/-- The window in which `OUT` is being overwritten: after the response to the pre-loop SIG.OUT and before the post-loop
SIG.OUT request is issued (R55, R182). -/
def overwriteWindow (s : State) : Bool :=
  match s.top, s.chan with
  | .T5, _ => true
  | .T6, .idle => true
  | _, _ => false

/-- The byte that the host's read number `draw` sees at address `a`: in `OUT`, inside the window of a run with `N >= 1`, any
byte (a free value, log 11); everywhere else the byte in memory (R55). -/
def hostReadByte (draw : Nat) (s : State) (a : Nat) : Byte :=
  if overwriteWindow s && (s.N != 0 && inOut s.params a) then Config.midRunByte draw a else memRead s.mem a

end Sys2Proof.Machine
end

