-- ==== Sys2Proof/Safety.lean ====
section
/-!
DEFINITION. The terms in which claims about a run are stated: performing a list of operations, running steps, the trace of
requests and of operations, the starting state of a run, and the invariants of a run.
-/
namespace Sys2Proof.Machine

/-- Perform the operations of a list one after another, stopping at the first fault or refusal (the pieces of program of
95_test_vectors.md section 8). The sequencer does not move between them. -/
def execList : List Instr → State → Host.Outcome State Fault Refusal
  | [], s => .next s
  | i :: is, s =>
    match exec i s with
    | .next s' => execList is s'
    | .fault r => .fault r
    | .refused r => .refused r

/-- `k` steps of the core. -/
abbrev run (k : Nat) (s : State) : Host.Outcome State Fault Refusal := Host.Core.run Sys2Proof.core k s

/-- The core is blocked on a signal (10_state.md R18). -/
abbrev Waiting (s : State) : Prop := ∃ type value, s.chan = .pending type value

/-- The final state of a run: T8 with the halt request pending, and only that (60_exceptions.md R200). -/
abbrev Final (s : State) : Prop := s.top = .T8 ∧ s.chan = .pendingHalt

/-- The request a step from `s` to `s'` issues: the channel leaves idle. -/
def issued (s s' : State) : List Chan := if s.chan = .idle ∧ s'.chan ≠ .idle then [s'.chan] else []

/-- The requests issued in `k` steps, in order (43_keystream_driver.md R161). -/
def requestTrace : Nat → State → List Chan
  | 0, _ => []
  | k + 1, s =>
    match step s with
    | .next s' => issued s s' ++ requestTrace k s'
    | .fault _ => []
    | .refused _ => []

/-- The operation a step from `s` performs: none while the channel is not idle or at T8. -/
def performed (s : State) : List Instr :=
  match s.chan, fetchWord s with
  | .idle, some w =>
    match decode w with
    | .ok i => [i]
    | .error _ => []
  | _, _ => []

/-- The operations performed in `k` steps, in order (43_keystream_driver.md R150, R160). -/
def operationTrace : Nat → State → List Instr
  | 0, _ => []
  | k + 1, s =>
    match step s with
    | .next s' => performed s ++ operationTrace k s'
    | .fault _ => []
    | .refused _ => []

/-- Only the fixed schedule runs (30_encoding.md R70): no operation word stands in place of the scheduled one. -/
abbrev OnSchedule (s : State) : Prop := s.issue = none

/-- A state in which a run starts: on an admissible platform, at T0 with the channel idle (10_state.md R26), memory in
canonical form. `S`, `W`, `N`, `i` and all bytes of memory are arbitrary. -/
structure Start (s : State) : Prop where
  platform : admissible s.params = true
  schedule : OnSchedule s
  top : s.top = .T0
  t : s.t = 0
  chan : s.chan = .idle
  mem : Memory.wf s.mem = true

/-- The request that may be pending at a position (30_encoding.md R77, R80). -/
def requestAt (p : Params) : Top → Option Chan
  | .T0 => some (.pending 0 p.keyAddr)
  | .T1 => some (.pending 1 p.nonceAddr)
  | .T2 => some (.pending 2 0)
  | .T4 => some (.pending 3 p.outAddr)
  | .T6 => some (.pending 3 p.outAddr)
  | .T3 => none
  | .T5 => none
  | .T7 => none
  | .T8 => none

/-- The channel and the loop registers agree with the position (10_state.md R16, R17, R18): idle, or the position's own
request; the halt request exactly at T8; `t` is 0 outside T5; `i` is 0 at T4, below `N` at T5, and `N` from T6 on. -/
structure PositionInv (s : State) : Prop where
  platform : admissible s.params = true
  schedule : OnSchedule s
  t_zero : s.top ≠ .T5 → s.t = 0
  chan : s.top ≠ .T8 → s.chan = .idle ∨ some s.chan = requestAt s.params s.top
  halted : s.top = .T8 → s.chan = .pendingHalt
  before : s.top = .T4 → s.i = 0
  inside : s.top = .T5 → s.i.toNat < s.N.toNat
  after : s.top = .T6 ∨ s.top = .T7 ∨ s.top = .T8 → s.i = s.N

/-- INIT has been performed: the position is past T3 (43_keystream_driver.md R152). -/
def initialised : Top → Bool
  | .T0 => false
  | .T1 => false
  | .T2 => false
  | .T3 => false
  | .T4 => true
  | .T5 => true
  | .T6 => true
  | .T7 => true
  | .T8 => true

/-- The cipher state INIT gives for the key and nonce in memory. -/
def initOf (s : State) : RegFile := initFile s.mem s.params.keyAddr.toNat s.params.nonceAddr.toNat

/-- Past INIT the cipher state is the one of the key and nonce, with its counter word `1 + i` (10_state.md R13, R14, R16). -/
structure CipherInv (s : State) : Prop where
  position : PositionInv s
  mem : Memory.wf s.mem = true
  cipher : initialised s.top = true → s.S = withCounter (initOf s) (add32 1 s.i)

/-- The 64 bytes of `OUT` are the block made with counter value `c` (43_keystream_driver.md R158). -/
def OutHolds (s : State) (c : Word) : Prop :=
  ∀ k, k < Config.outBytes →
    some (memRead s.mem (s.params.outAddr.toNat + k)) =
      (blockBytes s.params.byteOrder (withCounter (initOf s) c))[k]?

/-- The working block before step `t` of the micro-program, for `t >= 1`: `t - 1` quarter rounds done, then the output
words (30_encoding.md R78, 42_block_compressor.md R142). -/
def workBefore (t : Nat) (v : RegFile) : RegFile := if t ≤ 81 then firstRounds (t - 1) v else blockWords v

/-- A run so far (43_keystream_driver.md R154, R158): the working block is where the micro-program is, and `OUT` holds the
last block serialised, the block of counter `i` before SER of the next one, `i + 1` after it, and `N` past the loop. -/
structure RunInv (s : State) : Prop where
  cipher : CipherInv s
  work : s.top = .T5 → s.t.val ≠ 0 → s.W = workBefore s.t.val s.S
  earlier : s.top = .T5 → s.t.val ≤ 82 → s.i ≠ 0 → OutHolds s s.i
  serialised : s.top = .T5 → s.t.val = 83 → OutHolds s (add32 s.i 1)
  final : s.top = .T6 ∨ s.top = .T7 ∨ s.top = .T8 → s.N ≠ 0 → OutHolds s s.N

end Sys2Proof.Machine
end

