-- ==== Sys2Proof/Certificates/Slice0/Obligations.lean ====
section
/-!
DEFINITION. The statements for the provers, one definition each; OBLIGATIONS.json lists them.
-/
open Sys2Proof Sys2Proof.Machine

/-! ### Encodings (30_encoding.md) -/

/-- The operation words of 30_encoding.md R72 and R79 decode to their operations, and the words that 95_test_vectors.md V-Q8
and R76 name are reserved, each for its reason. The numbers are the spec's own choice (92_eei_decisions.md D3); the names of
the reasons are the model's, and each of these words has one reason only (log 27). -/
def Obligations.SpecWordsDecode : Prop :=
  (decode 0x01000000 = .ok .sigKey ∧ decode 0x01000001 = .ok .sigNonce ∧ decode 0x01000002 = .ok .sigCount ∧
   decode 0x01000003 = .ok .sigOut ∧ decode 0x02000000 = .ok .halt ∧ decode 0x10000000 = .ok .init ∧
   decode 0x20000000 = .ok .copy ∧ decode 0x22000000 = .ok .adds ∧ decode 0x23000000 = .ok .ser ∧
   decode 0x24000000 = .ok .ctrinc) ∧
  (decode 0x21048C00 = .ok (.qr 0 4 8 12) ∧ decode 0x2126AE00 = .ok (.qr 2 6 10 14) ∧
   decode 0x21278D00 = .ok (.qr 2 7 8 13) ∧ decode 0x21349E00 = .ok (.qr 3 4 9 14) ∧
   decode 0x21012300 = .ok (.qr 0 1 2 3)) ∧
  (decode 0x21002300 = .error .qrRepeatedIndex ∧ decode 0x21159100 = .error .qrRepeatedIndex ∧
   decode 0x21444400 = .error .qrRepeatedIndex ∧ decode 0x21012301 = .error .qrImmediate ∧
   decode 0x01000004 = .error .signalTypeAbove3 ∧ decode 0x01000100 = .error .signalRegisterField ∧
   decode 0x20000001 = .error .nonzeroField ∧ decode 0x03000000 = .error .unknownOpcode)

/-- Decoding the word of a well-formed operation gives the operation back, for every operation and all 43680 index tuples of
QR (30_encoding.md R71, R72, R74; the words are the spec's own choice, D3). -/
def Obligations.DecodeEncodeRoundTrip : Prop :=
  ∀ i : Instr, i.wellFormed = true → decode (encode i) = .ok i

/-- Every word the decoder accepts is the word of the operation it gives, and that operation is well-formed, so no two words
mean the same operation (30_encoding.md R72, R76; D3). -/
def Obligations.AcceptedWordIsItsEncoding : Prop :=
  ∀ (w : Word) (i : Instr), decode w = .ok i → i.wellFormed = true ∧ encode i = w

/-- A word is reserved exactly when it matches no row of the operation map, or is a QR word with two equal register fields;
and no word matches two rows (30_encoding.md R72, R76; D3, D23). -/
def Obligations.ReservedExactlyWhenNoRow : Prop :=
  (∀ w : Word, (∃ e, decode w = .error e) ↔
    (∀ r ∈ opcodeTable, w &&& r.mask ≠ r.mtch) ∨
      (w &&& 0xFF0000FF = 0x21000000 ∧ ¬ DistinctIndices (fieldA w) (fieldB w) (fieldC w) (fieldD w))) ∧
  (∀ w : Word, ∀ r ∈ opcodeTable, ∀ q ∈ opcodeTable, w &&& r.mask = r.mtch → w &&& q.mask = q.mtch → r = q)

/-! ### Word primitives (41_quarter_round.md section 1) and byte order (20_memory.md section 2) -/

/-- `add32` is the sum modulo 2^32 and `xor32` the bitwise exclusive-or, with the laws and the examples of R110 and R111. -/
def Obligations.AddAndXorOfWords : Prop :=
  (∀ x y z : Word,
    (add32 x y).toNat = (x.toNat + y.toNat) % 2 ^ 32 ∧ add32 x y = add32 y x ∧
    add32 (add32 x y) z = add32 x (add32 y z) ∧ add32 x 0 = x ∧
    (x ≠ 0 → add32 x (BitVec.ofNat 32 (2 ^ 32 - x.toNat)) = 0)) ∧
  (∀ x y z : Word,
    (∀ k, k < 32 → ((xor32 x y).getLsbD k = true ↔ x.getLsbD k ≠ y.getLsbD k)) ∧ xor32 x y = xor32 y x ∧
    xor32 (xor32 x y) z = xor32 x (xor32 y z) ∧ xor32 x 0 = x ∧ xor32 x x = 0) ∧
  (add32 0xFFFFFFFF 0x00000001 = 0x00000000 ∧ add32 0x80000000 0x80000000 = 0x00000000 ∧
   add32 0x11111111 0x01020304 = 0x12131415 ∧ xor32 0x01234567 0x12131415 = 0x13305172)

/-- `rotl32` moves bit `k` to bit `(k + r) mod 32`; its value is the formula of R112; amount 0 is the identity; rotating on by
`(32 - r) mod 32` undoes it. The amounts other than 16, 12, 8, 7 are the spec's decision D29. -/
def Obligations.RotationIsCircular : Prop :=
  ∀ (x : Word) (r : Nat), r < 32 →
    (∀ k, k < 32 → (rotl32 x r).getLsbD ((k + r) % 32) = x.getLsbD k) ∧
    (1 ≤ r → (rotl32 x r).toNat = (x.toNat * 2 ^ r) % 2 ^ 32 + x.toNat / 2 ^ (32 - r)) ∧
    rotl32 x 0 = x ∧ rotl32 (rotl32 x r) ((32 - r) % 32) = x

/-- `le32` of four bytes, lowest address first, is `b0 + 2^8 b1 + 2^16 b2 + 2^24 b3`, with the examples of R45; and INIT
decodes the key and nonce bytes with it in every state, whatever HOST_BYTE_ORDER is there. -/
def Obligations.LittleEndianDecode : Prop :=
  (∀ s u : State, exec .init s = .next u →
    (∀ k : Fin 8, regRead u.S ⟨4 + k.val, by omega⟩ =
      le32 (memRead s.mem (s.params.keyAddr.toNat + 4 * k.val)) (memRead s.mem (s.params.keyAddr.toNat + 4 * k.val + 1))
        (memRead s.mem (s.params.keyAddr.toNat + 4 * k.val + 2)) (memRead s.mem (s.params.keyAddr.toNat + 4 * k.val + 3))) ∧
    (∀ k : Fin 3, regRead u.S ⟨13 + k.val, by omega⟩ =
      le32 (memRead s.mem (s.params.nonceAddr.toNat + 4 * k.val))
        (memRead s.mem (s.params.nonceAddr.toNat + 4 * k.val + 1))
        (memRead s.mem (s.params.nonceAddr.toNat + 4 * k.val + 2))
        (memRead s.mem (s.params.nonceAddr.toNat + 4 * k.val + 3)))) ∧
  (∀ b0 b1 b2 b3 : Byte,
    (le32 b0 b1 b2 b3).toNat = b0.toNat + 2 ^ 8 * b1.toNat + 2 ^ 16 * b2.toNat + 2 ^ 24 * b3.toNat) ∧
  le32 0x00 0x00 0x00 0x09 = 0x09000000 ∧ le32 0x00 0x01 0x02 0x03 = 0x03020100

/-- `ser32` lists the bytes of a word lowest first for `little` and highest first for `big` (20_memory.md R47; the `big` order
is the spec's decision D31, log 19); with `little` it is the inverse of `le32`. -/
def Obligations.SerialisationOrder : Prop :=
  (∀ v : Word,
    (ser32 .little v).map BitVec.toNat =
      [v.toNat % 256, v.toNat / 2 ^ 8 % 256, v.toNat / 2 ^ 16 % 256, v.toNat / 2 ^ 24 % 256] ∧
    ser32 .big v = (ser32 .little v).reverse ∧
    (∀ b0 b1 b2 b3, ser32 .little v = [b0, b1, b2, b3] → le32 b0 b1 b2 b3 = v)) ∧
  (∀ b0 b1 b2 b3 : Byte, ser32 .little (le32 b0 b1 b2 b3) = [b0, b1, b2, b3])

/-! ### Quarter-Round Mixer (41_quarter_round.md) -/

/-- An ARX stage writes the sum to `W[x]`, the rotated exclusive-or with that sum to `W[z]`, and nothing else (R113). -/
def Obligations.ArxStageEffect : Prop :=
  ∀ (x y z : RegIdx) (r : Nat) (v : RegFile), x ≠ y → x ≠ z → y ≠ z →
    regRead (arx x y z r v) x = add32 (regRead v x) (regRead v y) ∧
    regRead (arx x y z r v) z = rotl32 (xor32 (regRead v z) (add32 (regRead v x) (regRead v y))) r ∧
    regRead (arx x y z r v) y = regRead v y ∧
    ∀ k, k ≠ x → k ≠ z → regRead (arx x y z r v) k = regRead v k

/-- QR on four distinct registers completes and gives the function of R114; only those four registers of `W` change, and
nothing else of the state; its word is the formula of R114 (its number is the spec's decision D3); and the source's test
inputs give the row of R114's example. -/
def Obligations.QuarterRoundResult : Prop :=
  (∀ (a b c d : RegIdx) (s : State), DistinctIndices a b c d →
    ∃ w : RegFile, exec (.qr a b c d) s = .next { s with W := w } ∧
      (let a1 := add32 (regRead s.W a) (regRead s.W b)
       let d1 := rotl32 (xor32 (regRead s.W d) a1) 16
       let c1 := add32 (regRead s.W c) d1
       let b1 := rotl32 (xor32 (regRead s.W b) c1) 12
       let a2 := add32 a1 b1
       let d2 := rotl32 (xor32 d1 a2) 8
       let c2 := add32 c1 d2
       let b2 := rotl32 (xor32 b1 c2) 7
       regRead w a = a2 ∧ regRead w b = b2 ∧ regRead w c = c2 ∧ regRead w d = d2) ∧
      (∀ k, k ≠ a → k ≠ b → k ≠ c → k ≠ d → regRead w k = regRead s.W k) ∧
      (encode (.qr a b c d)).toNat = 0x21000000 + a.val * 2 ^ 20 + b.val * 2 ^ 16 + c.val * 2 ^ 12 + d.val * 2 ^ 8) ∧
  quarterWords ⟨0x11111111, 0x01020304, 0x9b8d6f43, 0x01234567⟩ = ⟨0xea2a92f4, 0xcb1cf8ce, 0x4581472e, 0x5881c4bb⟩

/-- The quarter round is a bijection on four words with the inverse the spec writes out, and maps zero to zero (R118, which
the spec marks as derived). -/
def Obligations.QuarterRoundInverse : Prop :=
  (∀ q : Quad, quarterInverse (quarterWords q) = q ∧ quarterWords (quarterInverse q) = q) ∧
  quarterWords ⟨0, 0, 0, 0⟩ = ⟨0, 0, 0, 0⟩

/-- A QR with two equal indices is not well-formed, is not run, and no word decodes to it; every QR of the fixed schedule is
one of the eight groups of 30_encoding.md R79, and its indices are pairwise distinct (41_quarter_round.md section 3). The
spec refuses such a QR at the well-formedness check; that the meaning itself answers the refusal repeatedIndex is the
model's (log 15). -/
def Obligations.RepeatedIndicesRefused : Prop :=
  (∀ (a b c d : RegIdx) (s : State), ¬ DistinctIndices a b c d →
    exec (.qr a b c d) s = .refused .repeatedIndex ∧ (Instr.qr a b c d).wellFormed = false ∧
    ∀ w, decode w ≠ .ok (.qr a b c d)) ∧
  (∀ (t : Fin 84) (a b c d : RegIdx), decode (microWord t) = .ok (.qr a b c d) →
    (a, b, c, d) ∈ ([(0, 4, 8, 12), (1, 5, 9, 13), (2, 6, 10, 14), (3, 7, 11, 15), (0, 5, 10, 15), (1, 6, 11, 12),
      (2, 7, 8, 13), (3, 4, 9, 14)] : List (RegIdx × RegIdx × RegIdx × RegIdx)) ∧ DistinctIndices a b c d)

/-- Two quarter rounds on disjoint groups of registers commute, so the four of one round may run in any order (42 R135, which
the spec marks as derived). -/
def Obligations.DisjointQuarterRoundsCommute : Prop :=
  ∀ (a b c d e f g h : RegIdx) (s : State), DistinctIndices a b c d → DistinctIndices e f g h →
    (∀ x ∈ [a, b, c, d], ∀ y ∈ [e, f, g, h], x ≠ y) →
    execList [.qr a b c d, .qr e f g h] s = execList [.qr e f g h, .qr a b c d] s

/-! ### State Model initialiser (40_state_init.md) -/

/-- INIT completes and gives `S` as R100 writes it; nothing else changes; its word and position are those of R100 (the
spec's decisions D3 and D9). -/
def Obligations.InitResult : Prop :=
  (∀ s : State, s.params.keyAddr.toNat + 32 ≤ 2 ^ 32 → s.params.nonceAddr.toNat + 12 ≤ 2 ^ 32 →
    ∃ v : RegFile, exec .init s = .next { s with S := v } ∧
      regRead v 0 = 0x61707865 ∧ regRead v 1 = 0x3320646e ∧ regRead v 2 = 0x79622d32 ∧ regRead v 3 = 0x6b206574 ∧
      (∀ k : Fin 8, regRead v ⟨4 + k.val, by omega⟩ =
        le32 (memRead s.mem (s.params.keyAddr.toNat + 4 * k.val)) (memRead s.mem (s.params.keyAddr.toNat + 4 * k.val + 1))
          (memRead s.mem (s.params.keyAddr.toNat + 4 * k.val + 2)) (memRead s.mem (s.params.keyAddr.toNat + 4 * k.val + 3))) ∧
      regRead v 12 = 0x00000001 ∧
      (∀ k : Fin 3, regRead v ⟨13 + k.val, by omega⟩ =
        le32 (memRead s.mem (s.params.nonceAddr.toNat + 4 * k.val))
          (memRead s.mem (s.params.nonceAddr.toNat + 4 * k.val + 1))
          (memRead s.mem (s.params.nonceAddr.toNat + 4 * k.val + 2))
          (memRead s.mem (s.params.nonceAddr.toNat + 4 * k.val + 3)))) ∧
  encode .init = 0x10000000 ∧ ∀ t, scheduleWord .T3 t = some 0x10000000

/-- Where each bit of the key and of the nonce lands in `S` (R101, which the spec marks as derived). -/
def Obligations.InitByteMap : Prop :=
  ∀ s u : State, exec .init s = .next u →
    (∀ (j : Fin 32) (b : Nat), b < 8 →
      (regRead u.S ⟨4 + j.val / 4, by omega⟩).getLsbD (8 * (j.val % 4) + b) =
        (memRead s.mem (s.params.keyAddr.toNat + j.val)).getLsbD b) ∧
    (∀ (j : Fin 12) (b : Nat), b < 8 →
      (regRead u.S ⟨13 + j.val / 4, by omega⟩).getLsbD (8 * (j.val % 4) + b) =
        (memRead s.mem (s.params.nonceAddr.toNat + j.val)).getLsbD b)

/-- The same key and nonce bytes give the same `S`, whatever the registers, the rest of memory, the addresses and the byte
order are (R104, which the spec marks as derived). -/
def Obligations.InitHasNoHiddenInput : Prop :=
  ∀ s s' u u' : State,
    (∀ k, k < 32 → memRead s.mem (s.params.keyAddr.toNat + k) = memRead s'.mem (s'.params.keyAddr.toNat + k)) →
    (∀ k, k < 12 → memRead s.mem (s.params.nonceAddr.toNat + k) = memRead s'.mem (s'.params.nonceAddr.toNat + k)) →
    exec .init s = .next u → exec .init s' = .next u' → u.S = u'.S

/-- INIT and SER stop by name exactly when a buffer they use leaves the 2^32-byte address space (the model's own stop, log
18; 20_memory.md R40); on an admissible platform both complete, so no such platform has such a buffer (R43). -/
def Obligations.BuffersOutsideTheSpaceStop : Prop :=
  ∀ s : State,
    (exec .init s = .fault .addressOutsideSpace ↔
      2 ^ 32 < s.params.keyAddr.toNat + 32 ∨ 2 ^ 32 < s.params.nonceAddr.toNat + 12) ∧
    (exec .ser s = .fault .addressOutsideSpace ↔ 2 ^ 32 < s.params.outAddr.toNat + 64) ∧
    (admissible s.params = true → (∃ u, exec .init s = .next u) ∧ ∃ u, exec .ser s = .next u)

/-! ### Block Compressor (42_block_compressor.md) -/

/-- COPY completes: `W` becomes `S`, nothing else changes; its word and its place in the micro-program are those of R130
(the numbers are the spec's decisions D2 and D3). -/
def Obligations.CopyResult : Prop :=
  (∀ s : State, exec .copy s = .next { s with W := s.S }) ∧ encode .copy = 0x20000000 ∧ microWord 0 = 0x20000000

/-- ADDS completes: `W[k]` becomes `(W[k] + S[k]) mod 2^32`, each word on its own, nothing else changes. That the output words
stay in `W` is the spec's decision D13 (R136, log 14). -/
def Obligations.AddsResult : Prop :=
  (∀ s : State, ∃ v : RegFile, exec .adds s = .next { s with W := v } ∧
    ∀ k, (regRead v k).toNat = ((regRead s.W k).toNat + (regRead s.S k).toNat) % 2 ^ 32) ∧
  encode .adds = 0x22000000 ∧ microWord 81 = 0x22000000

/-- SER completes: byte `4k + j` of `OUT` becomes byte `j` of `ser32(W[k])`, with `little` bits `8j + 7` to `8j` of `W[k]`;
every byte of memory outside the 64 of `OUT` reads as before, and nothing but memory changes (R138; the numbers of its word
and step are the spec's decisions D2 and D3). -/
def Obligations.SerResult : Prop :=
  (∀ s : State, Memory.wf s.mem = true → s.params.outAddr.toNat + 64 ≤ 2 ^ 32 →
    ∃ m : Memory, exec .ser s = .next { s with mem := m } ∧ Memory.wf m = true ∧
      (∀ (k : RegIdx) (j : Nat), j < 4 →
        some (memRead m (s.params.outAddr.toNat + 4 * k.val + j)) = (ser32 s.params.byteOrder (regRead s.W k))[j]? ∧
        (s.params.byteOrder = .little →
          memRead m (s.params.outAddr.toNat + 4 * k.val + j) = (regRead s.W k).extractLsb' (8 * j) 8)) ∧
      (∀ x, ¬ (s.params.outAddr.toNat ≤ x ∧ x < s.params.outAddr.toNat + 64) → memRead m x = memRead s.mem x)) ∧
  encode .ser = 0x23000000 ∧ microWord 82 = 0x23000000

/-- CTRINC completes: `S[12]` becomes `(S[12] + 1) mod 2^32`, so 0xFFFFFFFF becomes 0 without a stop and without a carry; no
other word of `S` and nothing else changes (R140; the numbers of its word and step are the spec's decisions D2 and D3). -/
def Obligations.CtrincResult : Prop :=
  (∀ s : State, ∃ v : RegFile, exec .ctrinc s = .next { s with S := v } ∧
    (regRead v 12).toNat = ((regRead s.S 12).toNat + 1) % 2 ^ 32 ∧
    (regRead s.S 12 = 0xFFFFFFFF → regRead v 12 = 0x00000000) ∧
    ∀ k, k ≠ 12 → regRead v k = regRead s.S k) ∧
  encode .ctrinc = 0x24000000 ∧ microWord 83 = 0x24000000

/-- The column round, diagonal round and double round: their quarter rounds in order, each register in exactly one quarter
round of a round, the `j`-th diagonal's registers by R132's formula; performed from any state each completes and changes only
`W`; and 80 quarter rounds are ten double rounds (R131 to R134). -/
def Obligations.RoundsRunInOrder : Prop :=
  colRoundOps = (List.finRange 4).map (fun j => Instr.qr ⟨j.val, by omega⟩ ⟨4 + j.val, by omega⟩ ⟨8 + j.val, by omega⟩
    ⟨12 + j.val, by omega⟩) ∧
  diagRoundOps = (List.finRange 4).map (fun j => Instr.qr ⟨j.val, by omega⟩ ⟨4 + (j.val + 1) % 4, by omega⟩
    ⟨8 + (j.val + 2) % 4, by omega⟩ ⟨12 + (j.val + 3) % 4, by omega⟩) ∧
  dRoundOps = colRoundOps ++ diagRoundOps ∧ rounds20Ops.length = 80 ∧
  (∀ s : State, execList colRoundOps s = .next { s with W := colRound s.W } ∧
    execList diagRoundOps s = .next { s with W := diagRound s.W } ∧
    execList dRoundOps s = .next { s with W := diagRound (colRound s.W) } ∧
    execList rounds20Ops s = .next { s with W := firstRounds 80 s.W }) ∧
  (∀ v : RegFile, firstRounds 80 v = rounds20 v)

/-- ROUNDS20 is a bijection on working blocks (R134, a part the spec marks as derived). -/
def Obligations.Rounds20IsABijection : Prop := Function.Bijective rounds20

/-- BLOCK, 84 operations, from any state completes with the effect R142 gives: `W` and the 64 bytes of `OUT` are the output
words of `S`, the counter is one more, nothing else changes. That `W` holds the output words is the spec's decision D13 (log
14). -/
def Obligations.BlockEffect : Prop :=
  (blockOps = .copy :: (rounds20Ops ++ [.adds, .ser, .ctrinc]) ∧ blockOps.length = 84) ∧
  ∀ s : State, Memory.wf s.mem = true → s.params.outAddr.toNat + 64 ≤ 2 ^ 32 →
    ∃ (o v : RegFile) (m : Memory), execList blockOps s = .next { s with W := o, S := v, mem := m } ∧
      (∀ k, regRead o k = add32 (regRead (rounds20 s.S) k) (regRead s.S k)) ∧
      regRead v 12 = add32 (regRead s.S 12) 1 ∧ (∀ k, k ≠ 12 → regRead v k = regRead s.S k) ∧
      (∀ (k : RegIdx) (j : Nat), j < 4 →
        some (memRead m (s.params.outAddr.toNat + 4 * k.val + j)) = (ser32 s.params.byteOrder (regRead o k))[j]?) ∧
      (∀ x, ¬ (s.params.outAddr.toNat ≤ x ∧ x < s.params.outAddr.toNat + 64) → memRead m x = memRead s.mem x)

/-- Two BLOCKs from equal `S` in the same byte order give equal bytes of `OUT` and equal `S`, whatever `W`, `OUT`, the rest of
memory, the addresses and the control registers were (R144, which the spec marks as derived). -/
def Obligations.BlockDependsOnlyOnCipherState : Prop :=
  ∀ s s' u u' : State, Memory.wf s.mem = true → Memory.wf s'.mem = true → s.S = s'.S →
    s.params.byteOrder = s'.params.byteOrder → execList blockOps s = .next u → execList blockOps s' = .next u' →
    u.S = u'.S ∧ ∀ k, k < 64 → memRead u.mem (s.params.outAddr.toNat + k) = memRead u'.mem (s'.params.outAddr.toNat + k)

/-- After `n` BLOCKs from a state with counter `c` the counter is `(c + n) mod 2^32` and every other word of `S` is as it
was; the `n`-th block (counting from 1) is the block of the original `S` with its counter replaced by `(c + n - 1) mod 2^32`
(R143). -/
def Obligations.RepeatedBlocks : Prop :=
  ∀ (n : Nat) (s : State), Memory.wf s.mem = true → s.params.outAddr.toNat + 64 ≤ 2 ^ 32 →
    ∃ u : State, execList (repeatOps n blockOps) s = .next u ∧
      u.S = withCounter s.S (BitVec.ofNat 32 ((regRead s.S 12).toNat + n)) ∧
      (1 ≤ n → ∀ k, k < 64 → some (memRead u.mem (s.params.outAddr.toNat + k)) =
        (blockBytes s.params.byteOrder (withCounter s.S (BitVec.ofNat 32 ((regRead s.S 12).toNat + n - 1))))[k]?) ∧
      (∀ x, ¬ (s.params.outAddr.toNat ≤ x ∧ x < s.params.outAddr.toNat + 64) → memRead u.mem x = memRead s.mem x)

/-! ### Host Signal Channel (44_host_signal_channel.md) -/

/-- Each SIG operation completes its issue half with its own request words and changes nothing but `chan`; the words are those
of the wire table (R172 to R175, 30_encoding.md R80; the operation words are the spec's own, D3). -/
def Obligations.SignalsIssueTheirRequests : Prop :=
  (∀ s : State,
    exec .sigKey s = .next { s with chan := .pending 0 s.params.keyAddr } ∧
    exec .sigNonce s = .next { s with chan := .pending 1 s.params.nonceAddr } ∧
    exec .sigCount s = .next { s with chan := .pending 2 0 } ∧
    exec .sigOut s = .next { s with chan := .pending 3 s.params.outAddr }) ∧
  (encode .sigKey = 0x01000000 ∧ encode .sigNonce = 0x01000001 ∧ encode .sigCount = 0x01000002 ∧
   encode .sigOut = 0x01000003)

/-- The two halves of a signal (R170): the issue half of each SIG operation only makes its request pending; while it is
pending and unanswered no step changes the state; the response half makes `chan` idle, has the operation's own effect on the
response (only SIG.COUNT, type 2, has one: `N` becomes the response), and advances the position. The response is any word,
the first of the state's list of responses to come (R171; the list, and that the next step takes its first word, is the
model's, log 2). The response clause holds for a pending request of any type at any position; one that is not the position's
own is reached by no run, and its answer is the model's (log 26). -/
def Obligations.SignalHalves : Prop :=
  (∀ (s u : State) (i : Instr), i ∈ [Instr.sigKey, .sigNonce, .sigCount, .sigOut] → exec i s = .next u →
    (∃ type value, u.chan = .pending type value) ∧ u = { s with chan := u.chan }) ∧
  (∀ (s : State) (type value : Word), admissible s.params = true → s.chan = .pending type value →
    (∀ u, s.host = [] → step s = .next u → u = s) ∧
    (∀ r rest, s.host = r :: rest →
      step s = .next (advance { s with chan := .idle, host := rest, N := if type = 2 then r else s.N })))

/-- A signal the host never answers is a hang, for any number of steps: the state does not change and is not final (R179,
60_exceptions.md R199). That a blocked step answers the same state is the model's choice (log 1), as is the list of
responses whose emptiness stands for the host that never answers (log 2). -/
def Obligations.BlockedUntilAnswered : Prop :=
  ∀ (k : Nat) (s : State), admissible s.params = true → Waiting s → s.host = [] → run k s = .next s ∧ ¬ Final s

/-- HALT completes: the halt request is pending and the position is T8, everything else keeps its value (R177; that it keeps
its value is the spec's decision D22). -/
def Obligations.HaltResult : Prop :=
  (∀ s : State, exec .halt s = .next { s with chan := .pendingHalt, top := .T8 }) ∧ encode .halt = 0x02000000

/-- Nothing executes after the halt request: for any number of steps the state is the same. That the terminal position answers
the same state is the model's choice (log 1; 43_keystream_driver.md R156). -/
def Obligations.HaltedForever : Prop :=
  ∀ (k : Nat) (s : State), admissible s.params = true → s.chan = .pendingHalt → run k s = .next s ∧ requestTrace k s = []

/-- Halt is a request of its own, distinct from every signal, with HALT_CODE as its code, whatever that value is
(30_encoding.md R81, log 12); the host receives exactly the pending request. -/
def Obligations.HaltIsItsOwnRequest : Prop :=
  ∀ s : State,
    (s.chan = .pendingHalt → hostReceives s = some (.halt Config.haltCode) ∧
      ∀ type value, hostReceives s ≠ some (.signal type value)) ∧
    (∀ type value, s.chan = .pending type value ↔ hostReceives s = some (.signal type value)) ∧
    (s.chan = .idle ↔ hostReceives s = none)

/-! ### Sequencer (43_keystream_driver.md, 30_encoding.md section 4) -/

/-- With no request pending, a step performs exactly the operation its word decodes to, which completes, then: a datapath
operation advances the position; a SIG operation waits where it is; HALT stays at T8. A reserved word is refused by name. A
word put in place by withFetchWord is the one performed (log 7). One operation a step, and a SIG operation's issue half as
its meaning, are logs 9 and 26. -/
def Obligations.StepRunsTheDecodedOperation : Prop :=
  (∀ (s : State) (w : Word), admissible s.params = true → s.chan = .idle → fetchWord s = some w →
    (∀ e, decode w = .error e → step s = .refused (.reservedWord e)) ∧
    (∀ i, decode w = .ok i → ∃ u, exec i s = .next u ∧
      step s = .next (if u.chan = .idle then advance { u with issue := none } else { u with issue := none }))) ∧
  (∀ (s : State) (nbits w : Nat) (i : Instr), decodeTableWord nbits w = some i →
    (s.withFetchWord nbits w).chan = .idle ∧
    ∃ x, fetchWord (s.withFetchWord nbits w) = some x ∧ decode x = .ok i)

/-- The fixed schedule: the word of each position and of each of the 84 steps of the micro-program (30_encoding.md R77, R78,
R79; the places and numbers are the spec's decisions D2, D3, D9). -/
def Obligations.ScheduleHoldsTheRun : Prop :=
  (∀ t : Fin 84, scheduleWord .T0 t = some (encode .sigKey) ∧ scheduleWord .T1 t = some (encode .sigNonce) ∧
    scheduleWord .T2 t = some (encode .sigCount) ∧ scheduleWord .T3 t = some (encode .init) ∧
    scheduleWord .T4 t = some (encode .sigOut) ∧ scheduleWord .T5 t = some (microWord t) ∧
    scheduleWord .T6 t = some (encode .sigOut) ∧ scheduleWord .T7 t = some (encode .halt) ∧ scheduleWord .T8 t = none) ∧
  (List.finRange 84).map microWord = blockOps.map encode

/-- At a signal's position, when the response arrives: T0, T1, T2 move to the next position, with `N` latched at T2 (R151);
T4 makes the loop test (R153); T6 moves to T7 (R155); the response is otherwise discarded and nothing else changes. With no
response the position does not move. The responses are a list in State whose first word the next step takes and removes:
that is the model's (log 2); the loop test takes every `N`, unsigned (D11, log 8). -/
def Obligations.SignalPositionsAdvance : Prop :=
  ∀ s : State, admissible s.params = true → some s.chan = requestAt s.params s.top →
    (∀ u, s.host = [] → step s = .next u → u.top = s.top ∧ u.t = s.t) ∧
    (∀ r rest, s.host = r :: rest →
      (s.top = .T0 → step s = .next { s with chan := .idle, host := rest, top := .T1 }) ∧
      (s.top = .T1 → step s = .next { s with chan := .idle, host := rest, top := .T2 }) ∧
      (s.top = .T2 → step s = .next { s with chan := .idle, host := rest, top := .T3, N := r }) ∧
      (s.top = .T4 → s.i.toNat < s.N.toNat →
        step s = .next { s with chan := .idle, host := rest, top := .T5, t := 0 }) ∧
      (s.top = .T4 → ¬ s.i.toNat < s.N.toNat →
        step s = .next { s with chan := .idle, host := rest, top := .T6, t := 0 }) ∧
      (s.top = .T6 → step s = .next { s with chan := .idle, host := rest, top := .T7 }))

/-- At T5 a step performs the operation `B[t]`; if `t < 83` then `t` is one more; after the operation at 83 the block is
counted and the loop test either starts the next block or moves to T6; no signal is issued (R154). -/
def Obligations.BlockPositionsAdvance : Prop :=
  ∀ s : State, admissible s.params = true → OnSchedule s → s.top = .T5 → s.chan = .idle →
    ∃ (op : Instr) (u : State), decode (microWord s.t) = .ok op ∧ exec op s = .next u ∧ u.chan = .idle ∧
      (∀ h : s.t.val < 83, step s = .next { u with t := ⟨s.t.val + 1, by omega⟩ }) ∧
      (s.t.val = 83 → (add32 s.i 1).toNat < s.N.toNat → step s = .next { u with i := add32 s.i 1, t := 0 }) ∧
      (s.t.val = 83 → ¬ (add32 s.i 1).toNat < s.N.toNat →
        step s = .next { u with i := add32 s.i 1, top := .T6, t := 0 })

/-- The step at T3 performs INIT, sets `i` to 0 and moves to T4 (R152: the place is the spec's decision D9, `i` is D12); the
step at T7 issues the halt request and moves to T8 (R156). -/
def Obligations.InitAndHaltPositionsAdvance : Prop :=
  ∀ s : State, admissible s.params = true → OnSchedule s → s.chan = .idle →
    (s.top = .T3 → ∃ v, exec .init s = .next { s with S := v } ∧ step s = .next { s with S := v, i := 0, top := .T4 }) ∧
    (s.top = .T7 → step s = .next { s with chan := .pendingHalt, top := .T8 })

/-! ### Invariants (10_state.md) -/

/-- Reset and every launch on an admissible platform start a run with the run invariant, so the invariants below hold where
runs begin. The reset values of `W`, `S`, `N`, `i` are the model's (log 3) and nothing here rests on them; that the platform
of `State.reset` itself is admissible rests on the reset addresses, which are the model's (log 5). The launches take every
admissible platform. -/
def Obligations.InvariantsHoldAtLaunch : Prop :=
  (Start State.reset ∧ RunInv State.reset) ∧
  ∀ (p : Params) (key : Vector Byte 32) (nonce : Vector Byte 12) (responses : List Word), admissible p = true →
    launch p key nonce responses = .next (launchState p key nonce responses) ∧
    Start (launchState p key nonce responses) ∧ RunInv (launchState p key nonce responses)

/-- Every step keeps the agreement of channel, loop registers and position (10_state.md R16, R17, R18). -/
def Obligations.PositionInvariantKept : Prop :=
  ∀ s u : State, PositionInv s → step s = .next u → PositionInv u

/-- Every step keeps: past INIT, `S` is the cipher state of the key and nonce in memory with counter word `1 + i`
(10_state.md R13, R14, R16). The host writes no memory during a run (D24, log 13). -/
def Obligations.CipherInvariantKept : Prop :=
  ∀ s u : State, CipherInv s → step s = .next u → CipherInv u

/-- Every step keeps: the working block is where the micro-program is, and `OUT` holds the last block serialised
(43_keystream_driver.md sections 1 and 2). That `W` holds the output words from ADDS on is the spec's decision D13 (log 14);
that memory holds a whole earlier block in `OUT` during the loop is the model's own sequencer, which writes it only in SER,
while 20_memory.md R55 leaves the mid-run bytes a host sees unspecified (decision D14, log 11): this is about `mem`, not
about what the host reads. The host writes no memory during a run (D24, log 13). -/
def Obligations.RunInvariantKept : Prop :=
  ∀ s u : State, RunInv s → step s = .next u → RunInv u

/-- Every step from every state keeps the canonical form of memory, in which no listed byte equals what an unlisted address
reads as (the form is the model's; that value is log 4). -/
def Obligations.MemoryStaysCanonical : Prop :=
  ∀ s u : State, Memory.wf s.mem = true → step s = .next u → Memory.wf u.mem = true

/-- No exception: no step faults, from any state; and in a run every step answers a next state, or leaves the state as it is
because the core is blocked or halted (60_exceptions.md R190, R200; the step that answers the same state is the model's,
logs 1 and 2). -/
def Obligations.NoStepFaults : Prop :=
  (∀ (s : State) (r : Fault), step s ≠ .fault r) ∧
  (∀ s : State, PositionInv s → ∃ u, step s = .next u ∧ (u = s → Final s ∨ (Waiting s ∧ s.host = [])))

/-- For every operation other than INIT, `S[k]` is unchanged for every `k` other than 12, and for every operation other than
INIT and CTRINC all of `S` is unchanged; so after INIT no step of a run changes a word of `S` other than `S[12]`, and only the
step that performs CTRINC changes that one (R13). -/
def Obligations.OnlyInitAndCtrincWriteTheCipherState : Prop :=
  (∀ (i : Instr) (s u : State), exec i s = .next u →
    (i ≠ .init → ∀ k, k ≠ 12 → regRead u.S k = regRead s.S k) ∧
    (i ≠ .init → i ≠ .ctrinc → regRead u.S 12 = regRead s.S 12)) ∧
  (∀ s u : State, PositionInv s → initialised s.top = true → step s = .next u →
    (∀ k, k ≠ 12 → regRead u.S k = regRead s.S k) ∧
    (¬ (s.top = .T5 ∧ decode (microWord s.t) = .ok .ctrinc) → regRead u.S 12 = regRead s.S 12))

/-- Who reads and writes the working block: only COPY, QR and ADDS change it, QR only its four registers; and an operation
other than QR, ADDS and SER does the same whatever `W` held before: COPY gives the same new `W`, and the others leave `W` as
it was (10_state.md R10). -/
def Obligations.WorkingBlockAccess : Prop :=
  (∀ (i : Instr) (s u : State), exec i s = .next u →
    (i ≠ .copy → i ≠ .adds → (∀ a b c d, i ≠ .qr a b c d) → u.W = s.W) ∧
    (∀ a b c d, i = .qr a b c d → ∀ k, k ≠ a → k ≠ b → k ≠ c → k ≠ d → regRead u.W k = regRead s.W k)) ∧
  (∀ (i : Instr) (s u : State) (v : RegFile), i ≠ .adds → i ≠ .ser → (∀ a b c d, i ≠ .qr a b c d) →
    exec i s = .next u → exec i { s with W := v } = .next { u with W := if i = .copy then u.W else v })

/-- Only SER writes memory, and only the 64 bytes of `OUT`; in particular a step changes no byte of `KEY` and `NONCE`, and
no step changes the static parameters (10_state.md R19, R20, R21, R23). The host writes no memory during a run (D24, log
13). -/
def Obligations.OnlySerWritesMemory : Prop :=
  (∀ (i : Instr) (s u : State), exec i s = .next u →
    u.params = s.params ∧ (i ≠ .ser → u.mem = s.mem) ∧
    (Memory.wf s.mem = true →
      ∀ x, ¬ (s.params.outAddr.toNat ≤ x ∧ x < s.params.outAddr.toNat + 64) → memRead u.mem x = memRead s.mem x)) ∧
  (∀ s u : State, Memory.wf s.mem = true → step s = .next u →
    u.params = s.params ∧
    (∀ k, k < 32 → memRead u.mem (s.params.keyAddr.toNat + k) = memRead s.mem (s.params.keyAddr.toNat + k)) ∧
    (∀ k, k < 12 → memRead u.mem (s.params.nonceAddr.toNat + k) = memRead s.mem (s.params.nonceAddr.toNat + k)))

/-! ### Reset and launch (70_reset_and_hazards.md, 20_memory.md R43) -/

/-- A launch is admitted exactly when the three premises on the addresses hold: no wrap, pairwise disjoint, multiples of 4;
and a step on any other platform is refused (R43: the premises are the spec's decisions D7, D8; log 6). -/
def Obligations.LaunchPremises : Prop :=
  (∀ (p : Params) (key : Vector Byte 32) (nonce : Vector Byte 12) (responses : List Word),
    launch p key nonce responses = .refused .launchPremise ↔
      ¬ ((p.keyAddr.toNat + 31 < 2 ^ 32 ∧ p.nonceAddr.toNat + 11 < 2 ^ 32 ∧ p.outAddr.toNat + 63 < 2 ^ 32) ∧
        (∀ x, ¬ (p.keyAddr.toNat ≤ x ∧ x < p.keyAddr.toNat + 32 ∧ p.nonceAddr.toNat ≤ x ∧ x < p.nonceAddr.toNat + 12)) ∧
        (∀ x, ¬ (p.keyAddr.toNat ≤ x ∧ x < p.keyAddr.toNat + 32 ∧ p.outAddr.toNat ≤ x ∧ x < p.outAddr.toNat + 64)) ∧
        (∀ x, ¬ (p.nonceAddr.toNat ≤ x ∧ x < p.nonceAddr.toNat + 12 ∧ p.outAddr.toNat ≤ x ∧ x < p.outAddr.toNat + 64)) ∧
        (p.keyAddr.toNat % 4 = 0 ∧ p.nonceAddr.toNat % 4 = 0 ∧ p.outAddr.toNat % 4 = 0))) ∧
  (∀ s : State, admissible s.params = false → step s = .refused .launchPremise)

/-- What reset and a launch leave: T0, `t` 0, channel idle, the key and nonce the host wrote, `OUT` all zero; and a reset
from any state, Halted included, leaves the same with `KEY` and `NONCE` as they were (10_state.md R26, R27, 70 R220: OUT
zero is D16; that a reset also clears the issued word is log 7). The responses to come, which a launch sets and which are a
list in State, are log 2; a reset as a function on states, what it keeps and what it clears, is log 24; the address of `OUT`
in `State.reset` itself is log 5. -/
def Obligations.ResetAndLaunchState : Prop :=
  (State.reset.top = .T0 ∧ State.reset.t = 0 ∧ State.reset.chan = .idle ∧
    ∀ k, k < 64 → memRead State.reset.mem (State.reset.params.outAddr.toNat + k) = 0) ∧
  (∀ (p : Params) (key : Vector Byte 32) (nonce : Vector Byte 12) (responses : List Word), admissible p = true →
    ∃ s, launch p key nonce responses = .next s ∧ s.top = .T0 ∧ s.t = 0 ∧ s.chan = .idle ∧ s.params = p ∧
      s.host = responses ∧
      (∀ k : Fin 32, memRead s.mem (p.keyAddr.toNat + k.val) = key[k.val]) ∧
      (∀ k : Fin 12, memRead s.mem (p.nonceAddr.toNat + k.val) = nonce[k.val]) ∧
      (∀ k, k < 64 → memRead s.mem (p.outAddr.toNat + k) = 0)) ∧
  (∀ s : State, admissible s.params = true → Memory.wf s.mem = true →
    Start (applyReset s) ∧ (applyReset s).params = s.params ∧
      (∀ k, k < 32 → memRead (applyReset s).mem (s.params.keyAddr.toNat + k) = memRead s.mem (s.params.keyAddr.toNat + k)) ∧
      (∀ k, k < 12 → memRead (applyReset s).mem (s.params.nonceAddr.toNat + k) = memRead s.mem (s.params.nonceAddr.toNat + k)) ∧
      (∀ k, k < 64 → memRead (applyReset s).mem (s.params.outAddr.toNat + k) = 0))

/-! ### Whole runs (43_keystream_driver.md section 2), from any start of a run, on any platform, for any key, nonce and responses.
The host writes no memory and no reset comes during a run (logs 13 and 24), and every count is taken, unsigned (D11, log 8). -/

/-- A run with `N = 0`: no BLOCK is performed, memory is not written, `W` keeps its value, `S` stays as INIT left it; after
such a run from a launch `OUT` is 64 zero bytes (43_keystream_driver.md section 2; `OUT` zero at launch is D16). The twelve
steps count operations and responses, as the model takes them (logs 2 and 9); no host write and no reset comes in between
(logs 13 and 24). -/
def Obligations.ZeroIterations : Prop :=
  (∀ (s : State) (r0 r1 r3 r4 : Word) (rest : List Word), Start s → s.host = r0 :: r1 :: 0 :: r3 :: r4 :: rest →
    run 12 s = .next { s with S := initOf s, N := 0, i := 0, top := .T8, chan := .pendingHalt, host := rest } ∧
    regRead (initOf s) 12 = 1 ∧
    operationTrace 12 s = [.sigKey, .sigNonce, .sigCount, .init, .sigOut, .sigOut, .halt]) ∧
  (∀ (p : Params) (key : Vector Byte 32) (nonce : Vector Byte 12) (r0 r1 r3 r4 : Word) (rest : List Word),
    admissible p = true →
    ∃ u, run 12 (launchState p key nonce (r0 :: r1 :: 0 :: r3 :: r4 :: rest)) = .next u ∧ Final u ∧
      ∀ k, k < 64 → memRead u.mem (p.outAddr.toNat + k) = 0)

/-- A run with `N >= 1` ends halted; `OUT` is the block of the initial cipher state with counter `N`; the counter is `(1 +
N) mod 2^32`, every other word of `S` is as INIT left it, `i = N`; no byte outside `OUT` changes (R158, which the spec marks
as derived). The number of steps, `12 + 84 N`, counts operations and responses as the model takes them (logs 2 and 9). Every
count is taken, unsigned, also from 2^31 on (D11, log 8); no host write and no reset comes in between (logs 13 and 24). -/
def Obligations.FinalBlockOfARun : Prop :=
  ∀ (s : State) (r0 r1 n r3 r4 : Word) (rest : List Word), Start s → s.host = r0 :: r1 :: n :: r3 :: r4 :: rest → n ≠ 0 →
    ∃ u, run (12 + 84 * n.toNat) s = .next u ∧ Final u ∧ u.N = n ∧ u.i = n ∧ u.host = rest ∧ u.params = s.params ∧
      u.S = withCounter (initOf s) (add32 1 n) ∧
      (∀ k, k < 64 → some (memRead u.mem (s.params.outAddr.toNat + k)) =
        (blockBytes s.params.byteOrder (withCounter (initOf s) n))[k]?) ∧
      (∀ x, ¬ (s.params.outAddr.toNat ≤ x ∧ x < s.params.outAddr.toNat + 64) → memRead u.mem x = memRead s.mem x)

/-- The requests of a run are these six, in this order, with these payloads, whatever the inputs; the first four take the
same number of steps whatever `N` is, as do the last two once the loop is over, and only the time between the fourth and the
fifth depends on `N` (43_keystream_driver.md section 2). The counts of steps are the model's: a step is one operation or one
response (logs 2 and 9). Every count is taken, unsigned, also from 2^31 on (D11, log 8); no host write and no reset comes in
between (logs 13 and 24). -/
def Obligations.RequestTraceOfARun : Prop :=
  ∀ (s : State) (r0 r1 n r3 r4 : Word) (rest : List Word), Start s → s.host = r0 :: r1 :: n :: r3 :: r4 :: rest →
    (∀ k, requestTrace (12 + 84 * n.toNat + k) s =
      [.pending 0 s.params.keyAddr, .pending 1 s.params.nonceAddr, .pending 2 0, .pending 3 s.params.outAddr,
       .pending 3 s.params.outAddr, .pendingHalt]) ∧
    (requestTrace 7 s).length = 3 ∧ (requestTrace 8 s).length = 4 ∧ (requestTrace (9 + 84 * n.toNat) s).length = 4 ∧
    (requestTrace (10 + 84 * n.toNat) s).length = 5 ∧ (requestTrace (11 + 84 * n.toNat) s).length = 5

/-- The operations of a run are RUN with its iteration count: `7 + 84 N` of them (R150, R160, and R163, which the spec marks
as derived). The number of steps, `12 + 84 N`, counts operations and responses as the model takes them (logs 2 and 9). Every
count is taken, unsigned, also from 2^31 on (D11, log 8); no host write and no reset comes in between (logs 13 and 24). -/
def Obligations.OperationsOfARun : Prop :=
  (∀ (s : State) (r0 r1 n r3 r4 : Word) (rest : List Word), Start s → s.host = r0 :: r1 :: n :: r3 :: r4 :: rest →
    ∀ k, operationTrace (12 + 84 * n.toNat + k) s = runOps n.toNat) ∧
  (∀ n, (runOps n).length = 7 + 84 * n)

/-- The responses to SIG.KEY, SIG.NONCE and both SIG.OUT do not influence anything: two runs that differ in them only end in
states that differ in nothing (44_host_signal_channel.md R176, decision D18). The responses are a list in State and the
steps are counted as the model takes them (logs 2 and 9). Every count is taken, unsigned, also from 2^31 on (D11, log 8); no
host write and no reset comes in between (logs 13 and 24). -/
def Obligations.DiscardedResponsesDoNotMatter : Prop :=
  ∀ (s : State) (n r0 r1 r3 r4 q0 q1 q3 q4 : Word) (rest : List Word) (k : Nat), Start s →
    run (12 + 84 * n.toNat + k) { s with host := r0 :: r1 :: n :: r3 :: r4 :: rest } =
      run (12 + 84 * n.toNat + k) { s with host := q0 :: q1 :: n :: q3 :: q4 :: rest }

/-- The driver adds nothing to the block function: a run's memory and cipher state are those of BLOCK performed `N` times
from the initialised cipher state (43_keystream_driver.md section 2). The number of steps, `12 + 84 N`, counts operations
and responses as the model takes them (logs 2 and 9). Every count is taken, unsigned, also from 2^31 on (D11, log 8); no
host write and no reset comes in between (logs 13 and 24). -/
def Obligations.DriverComposesTheBlock : Prop :=
  ∀ (s : State) (r0 r1 n r3 r4 : Word) (rest : List Word), Start s → s.host = r0 :: r1 :: n :: r3 :: r4 :: rest →
    ∃ u v, run (12 + 84 * n.toNat) s = .next u ∧ execList (repeatOps n.toNat blockOps) { s with S := initOf s } = .next v ∧
      u.mem = v.mem ∧ u.S = v.S

/-! ### What the host sees (20_memory.md R55, 44_host_signal_channel.md R182) -/

/-- The four rows of R55 for a host read of `OUT` in a run: prior memory up to the pre-loop response; any byte (a free
value, log 11; D14) in the overwriting window when `N >= 1`, the prior contents when `N = 0`; from the post-loop request on,
exactly the bytes of block `N`, or, when `N = 0`, the contents of memory. Outside `OUT` the host always reads memory. -/
def Obligations.HostSeesOutput : Prop :=
  ∀ (draw : Nat) (s : State), RunInv s →
    (∀ k, k < 64 →
      (s.top = .T0 ∨ s.top = .T1 ∨ s.top = .T2 ∨ s.top = .T3 ∨ s.top = .T4 ∨ s.N = 0 →
        hostReadByte draw s (s.params.outAddr.toNat + k) = memRead s.mem (s.params.outAddr.toNat + k)) ∧
      (s.N ≠ 0 → s.top = .T5 ∨ (s.top = .T6 ∧ s.chan = .idle) →
        hostReadByte draw s (s.params.outAddr.toNat + k) = Config.midRunByte draw (s.params.outAddr.toNat + k)) ∧
      (s.N ≠ 0 → (s.top = .T6 ∧ s.chan ≠ .idle) ∨ s.top = .T7 ∨ s.top = .T8 →
        some (hostReadByte draw s (s.params.outAddr.toNat + k)) =
          (blockBytes s.params.byteOrder (withCounter (initOf s) s.N))[k]?)) ∧
    (∀ x, ¬ (s.params.outAddr.toNat ≤ x ∧ x < s.params.outAddr.toNat + 64) →
      hostReadByte draw s x = memRead s.mem x)

/-- From the post-loop announcement on `OUT`, and all of memory, is stable for ever (R182). The host writes no memory during
a run (D24, log 13). -/
def Obligations.OutputIsStable : Prop :=
  ∀ (k : Nat) (s u : State), PositionInv s → s.top = .T6 ∨ s.top = .T7 ∨ s.top = .T8 → run k s = .next u →
    u.mem = s.mem ∧ (u.top = .T6 ∨ u.top = .T7 ∨ u.top = .T8)
end

