-- ==== Sys2Proof/Laws/State.lean ====
section
/-!
SUPPORT. One lemma per field per update of State, so that no proof unfolds a record update.
-/
namespace Sys2Proof.Machine

@[simp] theorem State.setW_W (s : State) (v : RegFile) : (s.setW v).W = v := rfl
@[simp] theorem State.setW_S (s : State) (v : RegFile) : (s.setW v).S = s.S := rfl
@[simp] theorem State.setW_N (s : State) (v : RegFile) : (s.setW v).N = s.N := rfl
@[simp] theorem State.setW_i (s : State) (v : RegFile) : (s.setW v).i = s.i := rfl
@[simp] theorem State.setW_top (s : State) (v : RegFile) : (s.setW v).top = s.top := rfl
@[simp] theorem State.setW_t (s : State) (v : RegFile) : (s.setW v).t = s.t := rfl
@[simp] theorem State.setW_chan (s : State) (v : RegFile) : (s.setW v).chan = s.chan := rfl
@[simp] theorem State.setW_mem (s : State) (v : RegFile) : (s.setW v).mem = s.mem := rfl
@[simp] theorem State.setW_params (s : State) (v : RegFile) : (s.setW v).params = s.params := rfl
@[simp] theorem State.setW_host (s : State) (v : RegFile) : (s.setW v).host = s.host := rfl
@[simp] theorem State.setW_issue (s : State) (v : RegFile) : (s.setW v).issue = s.issue := rfl

@[simp] theorem State.setS_W (s : State) (v : RegFile) : (s.setS v).W = s.W := rfl
@[simp] theorem State.setS_S (s : State) (v : RegFile) : (s.setS v).S = v := rfl
@[simp] theorem State.setS_N (s : State) (v : RegFile) : (s.setS v).N = s.N := rfl
@[simp] theorem State.setS_i (s : State) (v : RegFile) : (s.setS v).i = s.i := rfl
@[simp] theorem State.setS_top (s : State) (v : RegFile) : (s.setS v).top = s.top := rfl
@[simp] theorem State.setS_t (s : State) (v : RegFile) : (s.setS v).t = s.t := rfl
@[simp] theorem State.setS_chan (s : State) (v : RegFile) : (s.setS v).chan = s.chan := rfl
@[simp] theorem State.setS_mem (s : State) (v : RegFile) : (s.setS v).mem = s.mem := rfl
@[simp] theorem State.setS_params (s : State) (v : RegFile) : (s.setS v).params = s.params := rfl
@[simp] theorem State.setS_host (s : State) (v : RegFile) : (s.setS v).host = s.host := rfl
@[simp] theorem State.setS_issue (s : State) (v : RegFile) : (s.setS v).issue = s.issue := rfl

@[simp] theorem State.setN_W (s : State) (v : Word) : (s.setN v).W = s.W := rfl
@[simp] theorem State.setN_S (s : State) (v : Word) : (s.setN v).S = s.S := rfl
@[simp] theorem State.setN_N (s : State) (v : Word) : (s.setN v).N = v := rfl
@[simp] theorem State.setN_i (s : State) (v : Word) : (s.setN v).i = s.i := rfl
@[simp] theorem State.setN_top (s : State) (v : Word) : (s.setN v).top = s.top := rfl
@[simp] theorem State.setN_t (s : State) (v : Word) : (s.setN v).t = s.t := rfl
@[simp] theorem State.setN_chan (s : State) (v : Word) : (s.setN v).chan = s.chan := rfl
@[simp] theorem State.setN_mem (s : State) (v : Word) : (s.setN v).mem = s.mem := rfl
@[simp] theorem State.setN_params (s : State) (v : Word) : (s.setN v).params = s.params := rfl
@[simp] theorem State.setN_host (s : State) (v : Word) : (s.setN v).host = s.host := rfl
@[simp] theorem State.setN_issue (s : State) (v : Word) : (s.setN v).issue = s.issue := rfl

@[simp] theorem State.setI_W (s : State) (v : Word) : (s.setI v).W = s.W := rfl
@[simp] theorem State.setI_S (s : State) (v : Word) : (s.setI v).S = s.S := rfl
@[simp] theorem State.setI_N (s : State) (v : Word) : (s.setI v).N = s.N := rfl
@[simp] theorem State.setI_i (s : State) (v : Word) : (s.setI v).i = v := rfl
@[simp] theorem State.setI_top (s : State) (v : Word) : (s.setI v).top = s.top := rfl
@[simp] theorem State.setI_t (s : State) (v : Word) : (s.setI v).t = s.t := rfl
@[simp] theorem State.setI_chan (s : State) (v : Word) : (s.setI v).chan = s.chan := rfl
@[simp] theorem State.setI_mem (s : State) (v : Word) : (s.setI v).mem = s.mem := rfl
@[simp] theorem State.setI_params (s : State) (v : Word) : (s.setI v).params = s.params := rfl
@[simp] theorem State.setI_host (s : State) (v : Word) : (s.setI v).host = s.host := rfl
@[simp] theorem State.setI_issue (s : State) (v : Word) : (s.setI v).issue = s.issue := rfl

@[simp] theorem State.setTop_W (s : State) (p : Top) : (s.setTop p).W = s.W := rfl
@[simp] theorem State.setTop_S (s : State) (p : Top) : (s.setTop p).S = s.S := rfl
@[simp] theorem State.setTop_N (s : State) (p : Top) : (s.setTop p).N = s.N := rfl
@[simp] theorem State.setTop_i (s : State) (p : Top) : (s.setTop p).i = s.i := rfl
@[simp] theorem State.setTop_top (s : State) (p : Top) : (s.setTop p).top = p := rfl
@[simp] theorem State.setTop_t (s : State) (p : Top) : (s.setTop p).t = s.t := rfl
@[simp] theorem State.setTop_chan (s : State) (p : Top) : (s.setTop p).chan = s.chan := rfl
@[simp] theorem State.setTop_mem (s : State) (p : Top) : (s.setTop p).mem = s.mem := rfl
@[simp] theorem State.setTop_params (s : State) (p : Top) : (s.setTop p).params = s.params := rfl
@[simp] theorem State.setTop_host (s : State) (p : Top) : (s.setTop p).host = s.host := rfl
@[simp] theorem State.setTop_issue (s : State) (p : Top) : (s.setTop p).issue = s.issue := rfl

@[simp] theorem State.setT_W (s : State) (k : Fin 84) : (s.setT k).W = s.W := rfl
@[simp] theorem State.setT_S (s : State) (k : Fin 84) : (s.setT k).S = s.S := rfl
@[simp] theorem State.setT_N (s : State) (k : Fin 84) : (s.setT k).N = s.N := rfl
@[simp] theorem State.setT_i (s : State) (k : Fin 84) : (s.setT k).i = s.i := rfl
@[simp] theorem State.setT_top (s : State) (k : Fin 84) : (s.setT k).top = s.top := rfl
@[simp] theorem State.setT_t (s : State) (k : Fin 84) : (s.setT k).t = k := rfl
@[simp] theorem State.setT_chan (s : State) (k : Fin 84) : (s.setT k).chan = s.chan := rfl
@[simp] theorem State.setT_mem (s : State) (k : Fin 84) : (s.setT k).mem = s.mem := rfl
@[simp] theorem State.setT_params (s : State) (k : Fin 84) : (s.setT k).params = s.params := rfl
@[simp] theorem State.setT_host (s : State) (k : Fin 84) : (s.setT k).host = s.host := rfl
@[simp] theorem State.setT_issue (s : State) (k : Fin 84) : (s.setT k).issue = s.issue := rfl

@[simp] theorem State.setChan_W (s : State) (c : Chan) : (s.setChan c).W = s.W := rfl
@[simp] theorem State.setChan_S (s : State) (c : Chan) : (s.setChan c).S = s.S := rfl
@[simp] theorem State.setChan_N (s : State) (c : Chan) : (s.setChan c).N = s.N := rfl
@[simp] theorem State.setChan_i (s : State) (c : Chan) : (s.setChan c).i = s.i := rfl
@[simp] theorem State.setChan_top (s : State) (c : Chan) : (s.setChan c).top = s.top := rfl
@[simp] theorem State.setChan_t (s : State) (c : Chan) : (s.setChan c).t = s.t := rfl
@[simp] theorem State.setChan_chan (s : State) (c : Chan) : (s.setChan c).chan = c := rfl
@[simp] theorem State.setChan_mem (s : State) (c : Chan) : (s.setChan c).mem = s.mem := rfl
@[simp] theorem State.setChan_params (s : State) (c : Chan) : (s.setChan c).params = s.params := rfl
@[simp] theorem State.setChan_host (s : State) (c : Chan) : (s.setChan c).host = s.host := rfl
@[simp] theorem State.setChan_issue (s : State) (c : Chan) : (s.setChan c).issue = s.issue := rfl

@[simp] theorem State.setMem_W (s : State) (m : Memory) : (s.setMem m).W = s.W := rfl
@[simp] theorem State.setMem_S (s : State) (m : Memory) : (s.setMem m).S = s.S := rfl
@[simp] theorem State.setMem_N (s : State) (m : Memory) : (s.setMem m).N = s.N := rfl
@[simp] theorem State.setMem_i (s : State) (m : Memory) : (s.setMem m).i = s.i := rfl
@[simp] theorem State.setMem_top (s : State) (m : Memory) : (s.setMem m).top = s.top := rfl
@[simp] theorem State.setMem_t (s : State) (m : Memory) : (s.setMem m).t = s.t := rfl
@[simp] theorem State.setMem_chan (s : State) (m : Memory) : (s.setMem m).chan = s.chan := rfl
@[simp] theorem State.setMem_mem (s : State) (m : Memory) : (s.setMem m).mem = m := rfl
@[simp] theorem State.setMem_params (s : State) (m : Memory) : (s.setMem m).params = s.params := rfl
@[simp] theorem State.setMem_host (s : State) (m : Memory) : (s.setMem m).host = s.host := rfl
@[simp] theorem State.setMem_issue (s : State) (m : Memory) : (s.setMem m).issue = s.issue := rfl

@[simp] theorem State.setParams_W (s : State) (p : Params) : (s.setParams p).W = s.W := rfl
@[simp] theorem State.setParams_S (s : State) (p : Params) : (s.setParams p).S = s.S := rfl
@[simp] theorem State.setParams_N (s : State) (p : Params) : (s.setParams p).N = s.N := rfl
@[simp] theorem State.setParams_i (s : State) (p : Params) : (s.setParams p).i = s.i := rfl
@[simp] theorem State.setParams_top (s : State) (p : Params) : (s.setParams p).top = s.top := rfl
@[simp] theorem State.setParams_t (s : State) (p : Params) : (s.setParams p).t = s.t := rfl
@[simp] theorem State.setParams_chan (s : State) (p : Params) : (s.setParams p).chan = s.chan := rfl
@[simp] theorem State.setParams_mem (s : State) (p : Params) : (s.setParams p).mem = s.mem := rfl
@[simp] theorem State.setParams_params (s : State) (p : Params) : (s.setParams p).params = p := rfl
@[simp] theorem State.setParams_host (s : State) (p : Params) : (s.setParams p).host = s.host := rfl
@[simp] theorem State.setParams_issue (s : State) (p : Params) : (s.setParams p).issue = s.issue := rfl

@[simp] theorem State.setHost_W (s : State) (l : List Word) : (s.setHost l).W = s.W := rfl
@[simp] theorem State.setHost_S (s : State) (l : List Word) : (s.setHost l).S = s.S := rfl
@[simp] theorem State.setHost_N (s : State) (l : List Word) : (s.setHost l).N = s.N := rfl
@[simp] theorem State.setHost_i (s : State) (l : List Word) : (s.setHost l).i = s.i := rfl
@[simp] theorem State.setHost_top (s : State) (l : List Word) : (s.setHost l).top = s.top := rfl
@[simp] theorem State.setHost_t (s : State) (l : List Word) : (s.setHost l).t = s.t := rfl
@[simp] theorem State.setHost_chan (s : State) (l : List Word) : (s.setHost l).chan = s.chan := rfl
@[simp] theorem State.setHost_mem (s : State) (l : List Word) : (s.setHost l).mem = s.mem := rfl
@[simp] theorem State.setHost_params (s : State) (l : List Word) : (s.setHost l).params = s.params := rfl
@[simp] theorem State.setHost_host (s : State) (l : List Word) : (s.setHost l).host = l := rfl
@[simp] theorem State.setHost_issue (s : State) (l : List Word) : (s.setHost l).issue = s.issue := rfl

@[simp] theorem State.setIssue_W (s : State) (w : Option Word) : (s.setIssue w).W = s.W := rfl
@[simp] theorem State.setIssue_S (s : State) (w : Option Word) : (s.setIssue w).S = s.S := rfl
@[simp] theorem State.setIssue_N (s : State) (w : Option Word) : (s.setIssue w).N = s.N := rfl
@[simp] theorem State.setIssue_i (s : State) (w : Option Word) : (s.setIssue w).i = s.i := rfl
@[simp] theorem State.setIssue_top (s : State) (w : Option Word) : (s.setIssue w).top = s.top := rfl
@[simp] theorem State.setIssue_t (s : State) (w : Option Word) : (s.setIssue w).t = s.t := rfl
@[simp] theorem State.setIssue_chan (s : State) (w : Option Word) : (s.setIssue w).chan = s.chan := rfl
@[simp] theorem State.setIssue_mem (s : State) (w : Option Word) : (s.setIssue w).mem = s.mem := rfl
@[simp] theorem State.setIssue_params (s : State) (w : Option Word) : (s.setIssue w).params = s.params := rfl
@[simp] theorem State.setIssue_host (s : State) (w : Option Word) : (s.setIssue w).host = s.host := rfl
@[simp] theorem State.setIssue_issue (s : State) (w : Option Word) : (s.setIssue w).issue = w := rfl

/-! An update made twice is the second one. -/

@[simp] theorem State.setW_setW (s : State) (v v' : RegFile) : (s.setW v).setW v' = s.setW v' := rfl
@[simp] theorem State.setS_setS (s : State) (v v' : RegFile) : (s.setS v).setS v' = s.setS v' := rfl
@[simp] theorem State.setN_setN (s : State) (v v' : Word) : (s.setN v).setN v' = s.setN v' := rfl
@[simp] theorem State.setI_setI (s : State) (v v' : Word) : (s.setI v).setI v' = s.setI v' := rfl
@[simp] theorem State.setTop_setTop (s : State) (p p' : Top) : (s.setTop p).setTop p' = s.setTop p' := rfl
@[simp] theorem State.setT_setT (s : State) (k k' : Fin 84) : (s.setT k).setT k' = s.setT k' := rfl
@[simp] theorem State.setChan_setChan (s : State) (c c' : Chan) : (s.setChan c).setChan c' = s.setChan c' := rfl
@[simp] theorem State.setMem_setMem (s : State) (m m' : Memory) : (s.setMem m).setMem m' = s.setMem m' := rfl
@[simp] theorem State.setParams_setParams (s : State) (p p' : Params) : (s.setParams p).setParams p' = s.setParams p' := rfl
@[simp] theorem State.setHost_setHost (s : State) (l l' : List Word) : (s.setHost l).setHost l' = s.setHost l' := rfl
@[simp] theorem State.setIssue_setIssue (s : State) (w w' : Option Word) : (s.setIssue w).setIssue w' = s.setIssue w' := rfl

/-- Two states are equal when every field is. -/
theorem State.ext_fields {s u : State} (hW : s.W = u.W) (hS : s.S = u.S) (hN : s.N = u.N) (hi : s.i = u.i)
    (htop : s.top = u.top) (ht : s.t = u.t) (hchan : s.chan = u.chan) (hmem : s.mem = u.mem)
    (hparams : s.params = u.params) (hhost : s.host = u.host) (hissue : s.issue = u.issue) : s = u := by
  cases s; cases u; simp_all

end Sys2Proof.Machine
end

