-- ==== Sys2Proof/Laws/Memory.lean ====
section
/-!
SUPPORT. The laws of memory: a read after a write, the bytes a write leaves alone, and the canonical form, which every
memory operation keeps.
-/
namespace Sys2Proof.Machine

/-- The canonical form of a list with a first entry. -/
theorem Memory.wf_cons {a : Nat} {v : Byte} {m : Memory} :
    Memory.wf ((a, v) :: m) = true ↔
      a < Config.addressSpace ∧ v ≠ unlistedByte ∧ (∀ c ∈ m, a < c.1) ∧ Memory.wf m = true := by
  simp [Memory.wf]

/-- Below the first listed address every byte is unlisted. -/
theorem memRead_unlisted {m : Memory} {a : Nat} (h : ∀ c ∈ m, a < c.1) : memRead m a = unlistedByte := by
  induction m with
  | nil => rfl
  | cons c m ih =>
    obtain ⟨b, w⟩ := c
    have hb : a ≠ b := by have := h (b, w) (by simp); omega
    rw [memRead, if_neg hb]
    exact ih fun c hc => h c (by simp [hc])

/-- `MemWrite` then `MemRead`: the byte written at its address, every other byte as before (20_memory.md R48, R49). -/
theorem memRead_memWrite {m : Memory} (hm : Memory.wf m = true) (a x : Nat) (v : Byte) :
    memRead (memWrite m a v) x = if x = a then v else memRead m x := by
  induction m with
  | nil =>
    unfold memWrite
    split <;> simp_all [memRead]
  | cons c m ih =>
    obtain ⟨b, w⟩ := c
    obtain ⟨_, _, hlt, hwf⟩ := Memory.wf_cons.mp hm
    have hunl : ∀ y, y < b → memRead ((b, w) :: m) y = unlistedByte := fun y hy =>
      memRead_unlisted fun c hc => by
        rcases List.mem_cons.mp hc with rfl | hc
        · exact hy
        · exact Nat.lt_trans hy (hlt c hc)
    unfold memWrite
    split
    · next hab =>
      split
      · next hv =>
        split
        · next hx => rw [hx, hunl a hab, hv]
        · rfl
      · simp [memRead]
    · split
      · next hab =>
        subst hab
        split
        · next hv =>
          by_cases hx : x = a
          · rw [if_pos hx, hx, hv, memRead_unlisted hlt]
          · simp [memRead, hx]
        · by_cases hx : x = a <;> simp [memRead, hx]
      · next h1 h2 =>
        by_cases hx : x = b
        · have : x ≠ a := by omega
          simp [memRead, hx]
          intro h
          omega
        · simp [memRead, hx, ih hwf]

/-- An address listed after a write was listed before, or is the one written. -/
theorem mem_memWrite {m : Memory} {a : Nat} {v : Byte} {c : Host.Cell} (h : c ∈ memWrite m a v) : c ∈ m ∨ c.1 = a := by
  induction m with
  | nil =>
    unfold memWrite at h
    split at h <;> simp_all
  | cons d m ih =>
    obtain ⟨b, w⟩ := d
    unfold memWrite at h
    split at h
    · split at h
      · exact .inl h
      · rcases List.mem_cons.mp h with rfl | h
        · exact .inr rfl
        · exact .inl h
    · split at h
      · split at h
        · exact .inl (List.mem_cons_of_mem _ h)
        · rcases List.mem_cons.mp h with rfl | h
          · exact .inr rfl
          · exact .inl (List.mem_cons_of_mem _ h)
      · rcases List.mem_cons.mp h with rfl | h
        · exact .inl (by simp)
        · rcases ih h with h | h
          · exact .inl (List.mem_cons_of_mem _ h)
          · exact .inr h

/-- `MemWrite` inside the address space keeps the canonical form. -/
theorem Memory.wf_memWrite {m : Memory} (hm : Memory.wf m = true) {a : Nat} (ha : a < Config.addressSpace) (v : Byte) :
    Memory.wf (memWrite m a v) = true := by
  induction m with
  | nil =>
    unfold memWrite
    split
    · rfl
    · next hv => exact Memory.wf_cons.mpr ⟨ha, hv, by simp, rfl⟩
  | cons c m ih =>
    obtain ⟨b, w⟩ := c
    obtain ⟨hb, hw, hlt, hwf⟩ := Memory.wf_cons.mp hm
    unfold memWrite
    split
    · next hab =>
      split
      · exact hm
      · next hv =>
        refine Memory.wf_cons.mpr ⟨ha, hv, fun c hc => ?_, hm⟩
        rcases List.mem_cons.mp hc with rfl | hc
        · exact hab
        · exact Nat.lt_trans hab (hlt c hc)
    · split
      · next hab =>
        split
        · exact hwf
        · next hv => exact Memory.wf_cons.mpr ⟨ha, hv, by rw [hab]; exact hlt, hwf⟩
      · next h1 h2 =>
        refine Memory.wf_cons.mpr ⟨hb, hw, fun c hc => ?_, ih hwf⟩
        rcases mem_memWrite hc with hc | hc
        · exact hlt c hc
        · omega

/-- Writing a list of bytes inside the address space keeps the canonical form. -/
theorem Memory.wf_memWriteList {m : Memory} (hm : Memory.wf m = true) {a : Nat} {vs : List Byte}
    (h : a + vs.length ≤ Config.addressSpace) : Memory.wf (memWriteList m a vs) = true := by
  induction vs generalizing m a with
  | nil => exact hm
  | cons v vs ih =>
    rw [List.length_cons] at h
    exact ih (Memory.wf_memWrite hm (by omega) v) (by omega)

/-- Writing a list of bytes: each at its place, every byte outside them as before. -/
theorem memRead_memWriteList {m : Memory} (hm : Memory.wf m = true) {a : Nat} {vs : List Byte}
    (h : a + vs.length ≤ Config.addressSpace) (x : Nat) :
    some (memRead (memWriteList m a vs) x) = if a ≤ x ∧ x < a + vs.length then vs[x - a]? else some (memRead m x) := by
  induction vs generalizing m a with
  | nil => rw [memWriteList, if_neg (by simp)]
  | cons v vs ih =>
    rw [List.length_cons] at h
    rw [memWriteList, ih (Memory.wf_memWrite hm (by omega) v) (by omega), memRead_memWrite hm, List.length_cons]
    by_cases hx : x = a
    · subst hx
      simp
    rw [if_neg hx]
    by_cases hin : a + 1 ≤ x ∧ x < a + 1 + vs.length
    · rw [if_pos hin, if_pos (by omega), show x - a = (x - (a + 1)) + 1 by omega, List.getElem?_cons_succ]
    · rw [if_neg hin, if_neg (by omega)]

/-- A byte outside the written list reads as before. -/
theorem memRead_memWriteList_outside {m : Memory} (hm : Memory.wf m = true) {a : Nat} {vs : List Byte}
    (h : a + vs.length ≤ Config.addressSpace) {x : Nat} (hx : ¬ (a ≤ x ∧ x < a + vs.length)) :
    memRead (memWriteList m a vs) x = memRead m x := by
  have := memRead_memWriteList hm h x
  rw [if_neg hx] at this
  exact Option.some.inj this

/-- Byte `k` of the written list. -/
theorem memRead_memWriteList_inside {m : Memory} (hm : Memory.wf m = true) {a : Nat} {vs : List Byte}
    (h : a + vs.length ≤ Config.addressSpace) {k : Nat} (hk : k < vs.length) :
    some (memRead (memWriteList m a vs) (a + k)) = vs[k]? := by
  rw [memRead_memWriteList hm h, if_pos (by omega), Nat.add_sub_cancel_left]

/-- Reset's memory is in canonical form. -/
theorem Memory.wf_reset : Memory.wf State.reset.mem = true := rfl

/-- The memory a launch leaves (70_reset_and_hazards.md R222). -/
theorem launchState_mem (p : Params) (key : Vector Byte 32) (nonce : Vector Byte 12) (responses : List Word) :
    (launchState p key nonce responses).mem =
      memWriteList (memWriteList [] p.keyAddr.toNat key.toList) p.nonceAddr.toNat nonce.toList := by
  rw [launchState, State.setMem_mem]

/-- The memory a reset leaves (70_reset_and_hazards.md R220). -/
theorem applyReset_mem (s : State) : (applyReset s).mem =
    memWriteList s.mem s.params.outAddr.toNat (List.replicate Config.outBytes unlistedByte) := by
  rw [applyReset, State.setMem_mem]

/-- What an admissible platform says of its three buffers (20_memory.md R43). -/
theorem admissible_iff {p : Params} : admissible p = true ↔
    (p.keyAddr.toNat + 32 ≤ 4294967296 ∧ p.nonceAddr.toNat + 12 ≤ 4294967296 ∧ p.outAddr.toNat + 64 ≤ 4294967296) ∧
    ((p.keyAddr.toNat + 32 ≤ p.nonceAddr.toNat ∨ p.nonceAddr.toNat + 12 ≤ p.keyAddr.toNat) ∧
     (p.keyAddr.toNat + 32 ≤ p.outAddr.toNat ∨ p.outAddr.toNat + 64 ≤ p.keyAddr.toNat) ∧
     (p.nonceAddr.toNat + 12 ≤ p.outAddr.toNat ∨ p.outAddr.toNat + 64 ≤ p.nonceAddr.toNat)) ∧
    (p.keyAddr.toNat % 4 = 0 ∧ p.nonceAddr.toNat % 4 = 0 ∧ p.outAddr.toNat % 4 = 0) := by
  simp only [admissible, inSpace, disjointRanges, Config.keyBytes, Config.nonceBytes, Config.outBytes,
    Config.addressSpace, Bool.and_eq_true, Bool.or_eq_true, decide_eq_true_eq]
  tauto

end Sys2Proof.Machine
end

