-- ==== Sys2Proof/Laws/PerInstr.lean ====
section
/-!
SUPPORT. One statement per operation as syntax: it has a row of 30_encoding.md R72, and its encoding carries that row's
operation code and signal type. The case split over all operations is the host's.
-/
namespace Sys2Proof.Laws.OpcodeByte

/-- The operation's row is in the table, and its word has the row's `opc` and `imm8` (R71, R72, R73). -/
def Statement (i : Instr) : Prop :=
  rowOf i ∈ opcodeTable ∧ opc (encode i) = opc (rowOf i).mtch ∧ imm8 (encode i) = imm8 (rowOf i).mtch

theorem sigKey : Statement .sigKey := by unfold Statement; decide

theorem sigNonce : Statement .sigNonce := by unfold Statement; decide

theorem sigCount : Statement .sigCount := by unfold Statement; decide

theorem sigOut : Statement .sigOut := by unfold Statement; decide

theorem halt : Statement .halt := by unfold Statement; decide

theorem init : Statement .init := by unfold Statement; decide

theorem copy : Statement .copy := by unfold Statement; decide

/-- The word of a QR as a number (41_quarter_round.md R114). -/
theorem encode_qr_toNat (a b c d : RegIdx) : (encode (.qr a b c d)).toNat =
    553648128 + a.val * 1048576 + b.val * 65536 + c.val * 4096 + d.val * 256 := by
  simp only [encode, BitVec.toNat_ofNat]
  omega

/-- A word's operation code as a number (R71). -/
theorem opc_toNat (w : Word) : (opc w).toNat = w.toNat / 2 ^ 24 % 256 := by simp [opc, Nat.shiftRight_eq_div_pow]

/-- A word's signal type as a number (R71). -/
theorem imm8_toNat (w : Word) : (imm8 w).toNat = w.toNat % 256 := by simp [imm8]

theorem qr (a b c d : RegIdx) : Statement (.qr a b c d) := by
  have hr : rowOf (.qr a b c d) = rowOf (.qr 0 0 0 0) := rfl
  rw [Statement, hr]
  have e := encode_qr_toNat a b c d
  generalize encode (.qr a b c d) = w at e
  have ho : opc w = 0x21 := BitVec.eq_of_toNat_eq (by rw [opc_toNat]; simp; omega)
  have hi : imm8 w = 0 := BitVec.eq_of_toNat_eq (by rw [imm8_toNat]; simp; omega)
  rw [ho, hi]
  decide

theorem adds : Statement .adds := by unfold Statement; decide

theorem ser : Statement .ser := by unfold Statement; decide

theorem ctrinc : Statement .ctrinc := by unfold Statement; decide

end Sys2Proof.Laws.OpcodeByte
end

