-- ==== Sys2Proof/Laws/Registers.lean ====
section
/-!
SUPPORT. Reading and writing a register file, and the bytes of a serialised file.
-/
namespace Sys2Proof.Machine

@[simp] theorem regRead_regWrite_same (v : RegFile) (a : RegIdx) (x : Word) : regRead (regWrite v a x) a = x := by
  simp [regRead, regWrite]

theorem regRead_regWrite_other (v : RegFile) {a b : RegIdx} (x : Word) (h : b ≠ a) :
    regRead (regWrite v a x) b = regRead v b := by
  have : a.val ≠ b.val := fun e => h (Fin.ext e.symm)
  simp [regRead, regWrite, Vector.getElem_set_ne, this]

/-- What a register reads after a register is written. -/
theorem regRead_regWrite (v : RegFile) (a b : RegIdx) (x : Word) :
    regRead (regWrite v a x) b = if b = a then x else regRead v b := by
  by_cases h : b = a
  · subst h; simp
  · simp [h, regRead_regWrite_other]

@[simp] theorem regRead_regBuild (f : RegIdx → Word) (k : RegIdx) : regRead (regBuild f) k = f k := by
  fin_cases k <;> rfl

/-- Two files are equal when every register is. -/
theorem regFile_ext {v w : RegFile} (h : ∀ k, regRead v k = regRead w k) : v = w := by
  apply Vector.ext
  intro k hk
  exact h ⟨k, hk⟩

/-- COPY's file is the file copied. -/
@[simp] theorem regBuild_regRead (v : RegFile) : regBuild (fun k => regRead v k) = v := regFile_ext (by simp)

@[simp] theorem regRead_addFiles (v w : RegFile) (k : RegIdx) :
    regRead (addFiles v w) k = add32 (regRead v k) (regRead w k) := by simp [addFiles]

theorem regRead_withCounter (v : RegFile) (c : Word) (k : RegIdx) :
    regRead (withCounter v c) k = if k = 12 then c else regRead v k := regRead_regWrite v 12 k c

@[simp] theorem withCounter_withCounter (v : RegFile) (c d : Word) :
    withCounter (withCounter v c) d = withCounter v d :=
  regFile_ext fun k => by simp only [regRead_withCounter]; split <;> rfl

theorem counterNext_withCounter (v : RegFile) (c : Word) :
    counterNext (withCounter v c) = withCounter v (add32 c 1) :=
  regFile_ext fun k => by
    simp only [counterNext, regRead_regWrite, regRead_withCounter]
    split <;> simp_all

@[simp] theorem length_ser32 (o : ByteOrder) (v : Word) : (ser32 o v).length = 4 := by cases o <;> rfl

/-- A list that maps each element to four bytes has byte `j` of element `k` at `4k + j`. -/
theorem getElem?_flatMap_four {α : Type} (f : α → List Byte) (hf : ∀ x, (f x).length = 4) :
    ∀ (l : List α) (k j : Nat), j < 4 → (l.flatMap f)[4 * k + j]? = l[k]?.bind (fun x => (f x)[j]?)
  | [], k, j, _ => by simp
  | x :: l, 0, j, hj => by
      simp [List.getElem?_append_left, hf, hj]
  | x :: l, k + 1, j, hj => by
      have h : (f x).length ≤ 4 * (k + 1) + j := by rw [hf]; omega
      rw [List.flatMap_cons, List.getElem?_append_right h, hf,
        show 4 * (k + 1) + j - 4 = 4 * k + j by omega, getElem?_flatMap_four f hf l k j hj]
      simp

@[simp] theorem length_serFile (o : ByteOrder) (v : RegFile) : (serFile o v).length = 64 := by
  simp [serFile, List.length_flatMap]

/-- Byte `4k + j` of a serialised file is byte `j` of `ser32` of word `k` (42_block_compressor.md R138). -/
theorem getElem?_serFile (o : ByteOrder) (v : RegFile) (k : RegIdx) {j : Nat} (hj : j < 4) :
    (serFile o v)[4 * k.val + j]? = (ser32 o (regRead v k))[j]? := by
  have := getElem?_flatMap_four (ser32 o) (length_ser32 o) v.toList k.val j hj
  simpa [serFile, regRead] using this

end Sys2Proof.Machine
end

