-- ==== Sys2Proof/Laws/QuarterRound.lean ====
section
/-!
SUPPORT. What an ARX stage and a quarter round do to each register of the working block, and the inverse of the primitives.
-/
namespace Sys2Proof.Machine

/-- Every register after an ARX stage on three distinct registers (41_quarter_round.md R113). -/
theorem regRead_arx {x y z : RegIdx} (hxz : x ≠ z) (r : Nat) (v : RegFile) (k : RegIdx) :
    regRead (arx x y z r v) k =
      if k = z then rotl32 (xor32 (regRead v z) (add32 (regRead v x) (regRead v y))) r
      else if k = x then add32 (regRead v x) (regRead v y) else regRead v k := by
  simp only [arx, regRead_regWrite, if_neg (Ne.symm hxz), if_true]
  split <;> simp_all

/-- A quarter round computes the function of four words on its registers (R114, R122). -/
theorem quadOf_quarterRound {a b c d : RegIdx} (h : DistinctIndices a b c d) (v : RegFile) :
    quadOf a b c d (quarterRound a b c d v) = quarterWords (quadOf a b c d v) := by
  obtain ⟨hab, hac, had, hbc, hbd, hcd⟩ := h
  have hba := hab.symm; have hca := hac.symm; have hda := had.symm
  have hcb := hbc.symm; have hdb := hbd.symm; have hdc := hcd.symm
  simp [quadOf, quarterRound, quarterWords, regRead_arx, *]

/-- A quarter round touches only its four registers (R117). -/
theorem regRead_quarterRound_other {a b c d k : RegIdx} (h : DistinctIndices a b c d) (ha : k ≠ a) (hb : k ≠ b)
    (hc : k ≠ c) (hd : k ≠ d) (v : RegFile) : regRead (quarterRound a b c d v) k = regRead v k := by
  obtain ⟨hab, hac, had, hbc, hbd, hcd⟩ := h
  have hcb := hbc.symm
  simp [quarterRound, regRead_arx, *]

/-- A file is determined by four of its registers and the other twelve. -/
theorem regFile_ext_quad {a b c d : RegIdx} {v w : RegFile} (hq : quadOf a b c d v = quadOf a b c d w)
    (ho : ∀ k, k ≠ a → k ≠ b → k ≠ c → k ≠ d → regRead v k = regRead w k) : v = w := by
  simp only [quadOf, Quad.mk.injEq] at hq
  obtain ⟨ha, hb, hc, hd⟩ := hq
  refine regFile_ext fun k => ?_
  by_cases h1 : k = a
  · rw [h1, ha]
  by_cases h2 : k = b
  · rw [h2, hb]
  by_cases h3 : k = c
  · rw [h3, hc]
  by_cases h4 : k = d
  · rw [h4, hd]
  exact ho k h1 h2 h3 h4

/-- Exclusive-or with the same word twice. -/
@[simp] theorem xor32_xor32_cancel (x y : Word) : xor32 (xor32 x y) y = x := by
  simp [xor32]

/-- The first `80` quarter rounds are the ten double rounds (42_block_compressor.md R134). -/
theorem firstRounds_add_eight (n : Nat) (v : RegFile) :
    firstRounds (8 * n + 8) v = doubleRound (firstRounds (8 * n) v) := by
  have h : ∀ j, j < 8 → (8 * n + j) % 8 = j := fun j hj => by omega
  have h0 : 8 * n % 8 = 0 := by omega
  simp only [firstRounds, h0, h 1 (by omega), h 2 (by omega), h 3 (by omega), h 4 (by omega), h 5 (by omega),
    h 6 (by omega), h 7 (by omega)]
  rfl

theorem doubleRounds_succ (n : Nat) (v : RegFile) : doubleRounds (n + 1) v = doubleRound (doubleRounds n v) := by
  induction n generalizing v with
  | zero => rfl
  | succ n ih => rw [doubleRounds, ih, doubleRounds]

theorem firstRounds_mul_eight (n : Nat) (v : RegFile) : firstRounds (8 * n) v = doubleRounds n v := by
  induction n with
  | zero => rfl
  | succ n ih => rw [Nat.mul_succ, firstRounds_add_eight, ih, doubleRounds_succ]

end Sys2Proof.Machine
end

