-- ==== Sys2Proof/Laws/Step.lean ====
section
/-!
SUPPORT. What each meaning can do, what a move of the sequencer can do, and what a step can do: one inversion lemma each.
-/
namespace Sys2Proof.Machine

@[simp] theorem mapNext_next (f : State → State) (s : State) : mapNext f (.next s) = .next (f s) := rfl
@[simp] theorem mapNext_fault (f : State → State) (r : Fault) : mapNext f (.fault r) = .fault r := rfl
@[simp] theorem mapNext_refused (f : State → State) (r : Refusal) : mapNext f (.refused r) = .refused r := rfl

/-- When a mapped outcome is a next state. -/
theorem mapNext_eq_next {f : State → State} {o : Host.Outcome State Fault Refusal} {u : State} :
    mapNext f o = .next u ↔ ∃ s, o = .next s ∧ u = f s := by
  cases o <;> simp [mapNext, eq_comm]

theorem inSpace_iff {b : Word} {n : Nat} : inSpace b n = true ↔ b.toNat + n ≤ 4294967296 := by
  simp [inSpace, Config.addressSpace]

/-- INIT where it completes (40_state_init.md R100). -/
theorem execInit_next {s u : State} : execInit s = .next u ↔
    (s.params.keyAddr.toNat + 32 ≤ 4294967296 ∧ s.params.nonceAddr.toNat + 12 ≤ 4294967296) ∧ u = s.setS (initOf s) := by
  unfold execInit
  split
  · next h =>
    rw [Bool.and_eq_true, inSpace_iff, inSpace_iff] at h
    exact ⟨fun e => ⟨h, (Host.Outcome.next.inj e).symm⟩, fun e => by rw [e.2]; rfl⟩
  · next h =>
    rw [Bool.and_eq_true, inSpace_iff, inSpace_iff] at h
    exact ⟨fun e => (by cases e), fun e => absurd e.1 h⟩

/-- SER where it completes (42_block_compressor.md R138). -/
theorem execSer_next {s u : State} : execSer s = .next u ↔
    s.params.outAddr.toNat + 64 ≤ 4294967296 ∧
      u = s.setMem (memWriteList s.mem s.params.outAddr.toNat (serFile s.params.byteOrder s.W)) := by
  unfold execSer
  split
  · next h => exact ⟨fun e => ⟨inSpace_iff.mp h, (Host.Outcome.next.inj e).symm⟩, fun e => by rw [e.2]⟩
  · next h => exact ⟨fun e => (by cases e), fun e => absurd (inSpace_iff.mpr e.1) h⟩

/-- QR where it completes (41_quarter_round.md R114, R116). -/
theorem execQr_next {a b c d : RegIdx} {s u : State} : execQr a b c d s = .next u ↔
    DistinctIndices a b c d ∧ u = s.setW (quarterRound a b c d s.W) := by
  unfold execQr
  split
  · next h => exact ⟨fun e => ⟨h, (Host.Outcome.next.inj e).symm⟩, fun e => by rw [e.2]⟩
  · next h => exact ⟨fun e => (by cases e), fun e => absurd e.1 h⟩

/-- QR on distinct registers completes (41_quarter_round.md R114). -/
theorem exec_qr_of_distinct {a b c d : RegIdx} (h : DistinctIndices a b c d) (s : State) :
    exec (.qr a b c d) s = .next (s.setW (quarterRound a b c d s.W)) := execQr_next.mpr ⟨h, rfl⟩

/-- COPY completes (42_block_compressor.md R130). -/
theorem exec_copy_eq (s : State) : exec .copy s = .next (s.setW s.S) := by
  rw [exec, execCopy, regBuild_regRead]

/-- Everything an operation can do when it completes: its request, `W`, `S`, or memory, and nothing else. -/
theorem exec_next_cases {i : Instr} {s u : State} (h : exec i s = .next u) :
    (∃ type value, i ∈ [Instr.sigKey, .sigNonce, .sigCount, .sigOut] ∧ u = s.setChan (.pending type value)) ∨
    (i = .halt ∧ u = (s.setChan .pendingHalt).setTop .T8) ∨
    (i = .init ∧ u = s.setS (initOf s)) ∨
    (i = .copy ∧ u = s.setW s.S) ∨
    (∃ a b c d, i = .qr a b c d ∧ DistinctIndices a b c d ∧ u = s.setW (quarterRound a b c d s.W)) ∨
    (i = .adds ∧ u = s.setW (addFiles s.W s.S)) ∨
    (i = .ser ∧ s.params.outAddr.toNat + 64 ≤ 4294967296 ∧
      u = s.setMem (memWriteList s.mem s.params.outAddr.toNat (serFile s.params.byteOrder s.W))) ∨
    (i = .ctrinc ∧ u = s.setS (counterNext s.S)) := by
  cases i with
  | sigKey => exact .inl ⟨_, _, by simp, (Host.Outcome.next.inj h).symm⟩
  | sigNonce => exact .inl ⟨_, _, by simp, (Host.Outcome.next.inj h).symm⟩
  | sigCount => exact .inl ⟨_, _, by simp, (Host.Outcome.next.inj h).symm⟩
  | sigOut => exact .inl ⟨_, _, by simp, (Host.Outcome.next.inj h).symm⟩
  | halt => exact .inr (.inl ⟨rfl, (Host.Outcome.next.inj h).symm⟩)
  | init => exact .inr (.inr (.inl ⟨rfl, (execInit_next.mp h).2⟩))
  | copy =>
    have := (Host.Outcome.next.inj h).symm
    rw [regBuild_regRead] at this
    exact .inr (.inr (.inr (.inl ⟨rfl, this⟩)))
  | qr a b c d => exact .inr (.inr (.inr (.inr (.inl ⟨a, b, c, d, rfl, execQr_next.mp h⟩))))
  | adds => exact .inr (.inr (.inr (.inr (.inr (.inl ⟨rfl, (Host.Outcome.next.inj h).symm⟩)))))
  | ser => exact .inr (.inr (.inr (.inr (.inr (.inr (.inl ⟨rfl, execSer_next.mp h⟩))))))
  | ctrinc => exact .inr (.inr (.inr (.inr (.inr (.inr (.inr ⟨rfl, (Host.Outcome.next.inj h).symm⟩))))))

/-- No operation changes the loop registers, `t`, the parameters, the responses to come or the issued word. -/
theorem exec_frame {i : Instr} {s u : State} (h : exec i s = .next u) :
    u.N = s.N ∧ u.i = s.i ∧ u.t = s.t ∧ u.params = s.params ∧ u.host = s.host ∧ u.issue = s.issue := by
  rcases exec_next_cases h with ⟨_, _, _, rfl⟩ | ⟨_, rfl⟩ | ⟨_, rfl⟩ | ⟨_, rfl⟩ | ⟨_, _, _, _, _, _, rfl⟩ | ⟨_, rfl⟩ |
    ⟨_, _, rfl⟩ | ⟨_, rfl⟩ <;> simp

/-- A move of the sequencer changes only the position and `i`. -/
theorem advance_frame (s : State) :
    (advance s).W = s.W ∧ (advance s).S = s.S ∧ (advance s).N = s.N ∧ (advance s).chan = s.chan ∧
    (advance s).mem = s.mem ∧ (advance s).params = s.params ∧ (advance s).host = s.host ∧
    (advance s).issue = s.issue := by
  unfold advance advanceBlock enterLoop
  split <;> try simp
  · split <;> simp
  · split
    · simp
    · split <;> simp

/-- The loop test is `i < N`, unsigned. -/
theorem loopTest_iff {s : State} : loopTest s = true ↔ s.i.toNat < s.N.toNat := by
  simp [loopTest, BitVec.ult]

/-- A response changes only `chan`, `N`, `i` and the position. -/
theorem respond_frame (r : Word) (s : State) :
    (respond r s).W = s.W ∧ (respond r s).S = s.S ∧ (respond r s).mem = s.mem ∧ (respond r s).params = s.params ∧
    (respond r s).host = s.host ∧ (respond r s).issue = s.issue := by
  unfold respond
  split
  · obtain ⟨hW, hS, _, _, hm, hp, hh, hi⟩ := advance_frame (responseEffect _ r (s.setChan .idle))
    rw [hW, hS, hm, hp, hh, hi]
    unfold responseEffect
    split <;> simp
  · simp
  · simp

/-- The move after a meaning changes only the issued word, `i` and the position. -/
theorem complete_frame (s : State) :
    (complete s).W = s.W ∧ (complete s).S = s.S ∧ (complete s).N = s.N ∧ (complete s).chan = s.chan ∧
    (complete s).mem = s.mem ∧ (complete s).params = s.params ∧ (complete s).host = s.host ∧
    (complete s).issue = none := by
  unfold complete
  split
  · simpa using advance_frame (s.setIssue none)
  · simp_all
  · simp_all

/-- Everything a step can do when it answers a next state: nothing (halted, blocked, or no operation held), a response, or the
operation of the word held, then the move of the position. -/
theorem step_next_cases {s u : State} (h : step s = .next u) : admissible s.params = true ∧
    ((s.chan = .pendingHalt ∧ u = s) ∨
     ((∃ type value, s.chan = .pending type value) ∧ s.host = [] ∧ u = s) ∨
     ((∃ type value, s.chan = .pending type value) ∧ ∃ r rest, s.host = r :: rest ∧ u = respond r (s.setHost rest)) ∨
     (s.chan = .idle ∧ fetchWord s = none ∧ u = s) ∨
     (s.chan = .idle ∧ ∃ w i x, fetchWord s = some w ∧ decode w = .ok i ∧ exec i s = .next x ∧ u = complete x)) := by
  unfold step at h
  split at h
  · next hadm =>
    refine ⟨hadm, ?_⟩
    split at h
    · next hc => exact .inl ⟨hc, (Host.Outcome.next.inj h).symm⟩
    · next type value hc =>
      have hu := (Host.Outcome.next.inj h).symm
      unfold awaitResponse at hu
      split at hu
      · next hh => exact .inr (.inl ⟨⟨_, _, hc⟩, hh, hu⟩)
      · next r rest hh => exact .inr (.inr (.inl ⟨⟨_, _, hc⟩, r, rest, hh, hu⟩))
    · next hc =>
      split at h
      · next hf => exact .inr (.inr (.inr (.inl ⟨hc, hf, (Host.Outcome.next.inj h).symm⟩)))
      · next w hf =>
        unfold runWord at h
        split at h
        · cases h
        · next i hd =>
          obtain ⟨x, hx, hu⟩ := mapNext_eq_next.mp h
          exact .inr (.inr (.inr (.inr ⟨hc, w, i, x, hf, hd, hx, hu⟩)))
  · cases h

/-- A step with no request pending performs the operation of the word held, then moves the position. -/
theorem step_of_decode {s : State} {w : Word} {i : Instr} (hadm : admissible s.params = true) (hc : s.chan = .idle)
    (hf : fetchWord s = some w) (hd : decode w = .ok i) : step s = mapNext complete (exec i s) := by
  simp [step, hadm, hc, hf, runWord, hd]

/-- A step while a signal is pending. -/
theorem step_of_pending {s : State} {type value : Word} (hadm : admissible s.params = true)
    (hc : s.chan = .pending type value) : step s = .next (awaitResponse s) := by
  simp [step, hadm, hc]

/-- A step after the halt request. -/
theorem step_of_pendingHalt {s : State} (hadm : admissible s.params = true) (hc : s.chan = .pendingHalt) :
    step s = .next s := by
  simp [step, hadm, hc]

/-- The operation of each step of the block micro-program (30_encoding.md R78, R79). -/
def microInstr (t : Fin 84) : Instr := blockOps.getD t.val .halt

/-- Every word of the micro-program decodes to its operation. -/
theorem decode_microWord (t : Fin 84) : decode (microWord t) = .ok (microInstr t) := by
  revert t; decide +kernel

/-- Running no step. -/
@[simp] theorem run_zero (s : State) : run 0 s = .next s := rfl

/-- Running one step of any core and then `k` more. -/
theorem core_run_succ (M : Host.Core) (k : Nat) (s : M.State) : M.run (k + 1) s =
    match M.step s with
    | .next s' => M.run k s'
    | .fault r => .fault r
    | .refused r => .refused r := rfl

/-- Running one step and then `k` more. -/
theorem run_succ (k : Nat) (s : State) : run (k + 1) s =
    match step s with
    | .next s' => run k s'
    | .fault r => .fault r
    | .refused r => .refused r := by
  refine (core_run_succ Sys2Proof.core k s).trans ?_
  have hs : Sys2Proof.core.step s = step s := rfl
  rw [hs]
  cases step s <;> rfl

theorem run_succ_of_next {k : Nat} {s u : State} (h : step s = .next u) : run (k + 1) s = run k u := by
  rw [run_succ, h]

/-- Running `m` steps and then `k` more. -/
theorem run_add {m k : Nat} {s u : State} (h : run m s = .next u) : run (m + k) s = run k u := by
  induction m generalizing s with
  | zero => cases h; rw [Nat.zero_add]
  | succ m ih =>
    rw [run_succ] at h
    rw [Nat.succ_add, run_succ]
    split at h
    · exact ih h
    · cases h
    · cases h

/-- Performing an operation that completes, then the rest of the list. -/
theorem execList_cons {i : Instr} {l : List Instr} {s u : State} (h : exec i s = .next u) :
    execList (i :: l) s = execList l u := by
  rw [execList, h]

/-- Performing two lists of operations one after the other. -/
theorem execList_append {l l' : List Instr} {s u : State} (h : execList l s = .next u) :
    execList (l ++ l') s = execList l' u := by
  induction l generalizing s with
  | nil => cases h; rfl
  | cons i l ih =>
    simp only [execList, List.cons_append] at h ⊢
    split at h
    · exact ih h
    · cases h
    · cases h

end Sys2Proof.Machine
end

