-- ==== Sys2Proof/Tests/Slice0.lean ====
section
/-!
SUPPORT. The model's own tests, with their expected values from spec/ (mostly 95_test_vectors.md), and a named witness for
the hypotheses of every statement of Certificates/Slice0/Obligations.lean.
-/
namespace Sys2Proof.Tests

open Sys2Proof Sys2Proof.Machine

-- One declaration at a time: many kernel evaluations at once would need more threads than the check's memory limit holds.
set_option Elab.async false

/-! ### Helpers -/

/-- The next state of an outcome, if it is one. -/
def nextOf : Host.Outcome State Fault Refusal → Option State
  | .next s => some s
  | .fault _ => none
  | .refused _ => none

/-- The refusal of an outcome, if it is one. -/
def refusalOf : Host.Outcome State Fault Refusal → Option Refusal
  | .next _ => none
  | .fault _ => none
  | .refused r => some r

/-- The fault of an outcome, if it is one. -/
def faultOf : Host.Outcome State Fault Refusal → Option Fault
  | .next _ => none
  | .fault r => some r
  | .refused _ => none

/-- An outcome with a next state is that next state. -/
theorem exists_next {o : Host.Outcome State Fault Refusal} (h : (nextOf o).isSome = true) : ∃ u, o = .next u := by
  cases o with
  | next s => exact ⟨s, rfl⟩
  | fault r => cases h
  | refused r => cases h

/-- An outcome whose fault is `r` is that fault. -/
theorem eq_fault {o : Host.Outcome State Fault Refusal} {r : Fault} (h : faultOf o = some r) : o = .fault r := by
  cases o with
  | next s => cases h
  | fault q => cases h; rfl
  | refused q => cases h

/-- Bytes at increasing addresses of a memory. -/
def bytesAt (m : Memory) (a n : Nat) : List Byte := (List.range n).map (fun k => memRead m (a + k))

/-- The state after reset, moved to a position. -/
def atTop (p : Top) : State := State.reset.setTop p

/-- The state after reset, moved to a step of the block micro-program in a run of `n` blocks with `i` of them done. -/
def inBlock (t : Fin 84) (i n : Word) : State := (((State.reset.setTop .T5).setT t).setI i).setN n

/-- A register file whose first four registers are given and the others zero. -/
def firstFour (a b c d : Word) : RegFile := #v[a, b, c, d, 0, 0, 0, 0, 0, 0, 0, 0, 0, 0, 0, 0]

/-- The first four registers of the working block after an operation. -/
def firstFourOf (o : Host.Outcome State Fault Refusal) : Option (List Word) := (nextOf o).map (fun s => s.W.toList.take 4)

/-- `S_ref` (95_test_vectors.md V-I1). -/
def sRef : RegFile :=
  #v[0x61707865, 0x3320646e, 0x79622d32, 0x6b206574, 0x03020100, 0x07060504, 0x0b0a0908, 0x0f0e0d0c,
     0x13121110, 0x17161514, 0x1b1a1918, 0x1f1e1d1c, 0x00000001, 0x09000000, 0x4a000000, 0x00000000]

/-- The key and nonce bytes of V-I1 in memory, at the addresses of 95_test_vectors.md section 8. -/
def refMemory : Memory :=
  memWriteList (memWriteList [] 0x03000000
    [0x00, 0x01, 0x02, 0x03, 0x04, 0x05, 0x06, 0x07, 0x08, 0x09, 0x0a, 0x0b, 0x0c, 0x0d, 0x0e, 0x0f,
     0x10, 0x11, 0x12, 0x13, 0x14, 0x15, 0x16, 0x17, 0x18, 0x19, 0x1a, 0x1b, 0x1c, 0x1d, 0x1e, 0x1f])
    0x03000020 [0x00, 0x00, 0x00, 0x09, 0x00, 0x00, 0x00, 0x4a, 0x00, 0x00, 0x00, 0x00]

/-- The cipher state of an all-zero key and nonce (V-I2). -/
def zeroKeyState : RegFile := #v[0x61707865, 0x3320646e, 0x79622d32, 0x6b206574, 0, 0, 0, 0, 0, 0, 0, 0, 1, 0, 0, 0]

/-- The output bytes of V-B3. -/
def bytesB3 : List Byte :=
  [0x9f, 0x07, 0xe7, 0xbe, 0x55, 0x51, 0x38, 0x7a, 0x98, 0xba, 0x97, 0x7c, 0x73, 0x2d, 0x08, 0x0d,
   0xcb, 0x0f, 0x29, 0xa0, 0x48, 0xe3, 0x65, 0x69, 0x12, 0xc6, 0x53, 0x3e, 0x32, 0xee, 0x7a, 0xed,
   0x29, 0xb7, 0x21, 0x76, 0x9c, 0xe6, 0x4e, 0x43, 0xd5, 0x71, 0x33, 0xb0, 0x74, 0xd8, 0x39, 0xd5,
   0x31, 0xed, 0x1f, 0x28, 0x51, 0x0a, 0xfb, 0x45, 0xac, 0xe1, 0x0a, 0x1f, 0x4b, 0x79, 0x4d, 0x6f]

/-! ### Well-formedness: each pair of QR's indices is checked (30_encoding.md R76, V-Q8) -/

theorem test_wellFormed_accepts : (Instr.qr 0 1 2 3).wellFormed = true ∧ (Instr.qr 1 5 9 13).wellFormed = true := by decide

theorem test_wellFormed_refuses :
    (Instr.qr 0 0 2 3).wellFormed = false ∧ (Instr.qr 0 1 0 3).wellFormed = false ∧
    (Instr.qr 1 5 9 1).wellFormed = false ∧ (Instr.qr 0 2 2 3).wellFormed = false ∧
    (Instr.qr 0 3 2 3).wellFormed = false ∧ (Instr.qr 0 1 3 3).wellFormed = false ∧
    (Instr.qr 4 4 4 4).wellFormed = false := by decide

/-! ### Decoding: every operation's word written out in bits as `opc fa fb fc fd imm8` (30_encoding.md R71, R72) -/

theorem test_decode_signals :
    decode 0b00000001000000000000000000000000 = .ok .sigKey ∧ decode 0b00000001000000000000000000000001 = .ok .sigNonce ∧
    decode 0b00000001000000000000000000000010 = .ok .sigCount ∧ decode 0b00000001000000000000000000000011 = .ok .sigOut := by
  decide

theorem test_decode_halt_init :
    decode 0b00000010000000000000000000000000 = .ok .halt ∧ decode 0b00010000000000000000000000000000 = .ok .init := by decide

theorem test_decode_block_operations :
    decode 0b00100000000000000000000000000000 = .ok .copy ∧ decode 0b00100010000000000000000000000000 = .ok .adds ∧
    decode 0b00100011000000000000000000000000 = .ok .ser ∧ decode 0b00100100000000000000000000000000 = .ok .ctrinc := by decide

theorem test_decode_qr :
    decode 0b00100001000001001000110000000000 = .ok (.qr 0 4 8 12) ∧
    decode 0b00100001001001111000110100000000 = .ok (.qr 2 7 8 13) ∧
    decode 0b00100001111100000001001000000000 = .ok (.qr 15 0 1 2) := by decide

/-- Reserved words (R76); the two with two reasons get the model's choice of name (log 27). -/
theorem test_decode_reserved :
    decode 0x21002300 = .error .qrRepeatedIndex ∧ decode 0x21012380 = .error .qrImmediate ∧
    decode 0x01000004 = .error .signalTypeAbove3 ∧ decode 0x01100000 = .error .signalRegisterField ∧
    decode 0x02000001 = .error .nonzeroField ∧ decode 0x24800000 = .error .nonzeroField ∧
    decode 0x01000104 = .error .signalRegisterField ∧ decode 0x21000001 = .error .qrImmediate ∧
    decode 0x00000000 = .error .unknownOpcode ∧ decode 0x25000000 = .error .unknownOpcode := by decide

/-- The eight words of R79 are the encodings of its groups. -/
theorem test_encode_groups :
    [Instr.qr 0 4 8 12, .qr 1 5 9 13, .qr 2 6 10 14, .qr 3 7 11 15, .qr 0 5 10 15, .qr 1 6 11 12, .qr 2 7 8 13,
      .qr 3 4 9 14].map encode =
    [0x21048C00, 0x21159D00, 0x2126AE00, 0x2137BF00, 0x2105AF00, 0x2116BC00, 0x21278D00, 0x21349E00] := by decide

theorem test_decodeTableWord :
    decodeTableWord 32 0x21012300 = some (.qr 0 1 2 3) ∧ decodeTableWord 32 0x21000000 = none ∧
    decodeTableWord 32 0x10000000 = some .init := by decide

/-! ### Word primitives (95_test_vectors.md section 3) -/

theorem test_add_wraps : add32 0xffffffff 0xffffffff = 0xfffffffe ∧ add32 0xffffffff 1 = 0 := by decide

theorem test_rotl :
    rotl32 0x12345678 7 = 0x1a2b3c09 ∧ rotl32 0x12345678 12 = 0x45678123 ∧ rotl32 0x80000001 31 = 0xc0000000 ∧
    rotl32 0x80000001 0 = 0x80000001 := by decide

/-! ### Host Signal Channel (44_host_signal_channel.md R172 to R177, the worked examples) -/

theorem test_sigKey : (nextOf (exec .sigKey State.reset)).map (·.chan) = some (.pending 0 0x03000000) := by decide

theorem test_sigNonce : (nextOf (exec .sigNonce State.reset)).map (·.chan) = some (.pending 1 0x03000020) := by decide

theorem test_sigCount : (nextOf (exec .sigCount State.reset)).map (·.chan) = some (.pending 2 0) := by decide

theorem test_sigOut : (nextOf (exec .sigOut State.reset)).map (·.chan) = some (.pending 3 0x03000040) := by decide

theorem test_halt : (nextOf (exec .halt State.reset)).map (fun s => (s.chan, s.top)) = some (.pendingHalt, .T8) := by decide

/-- The host answers 5 to SIG.COUNT: `N = 5` (R174). -/
theorem test_count_response :
    (nextOf (step (((atTop .T2).setChan (.pending 2 0)).setHost [5, 9]))).map (fun s => (s.N, s.top, s.chan, s.host)) =
      some (5, .T3, .idle, [9]) := by decide

/-- A response to SIG.NONCE is discarded (R176, P3). -/
theorem test_discarded_response :
    (nextOf (step (((atTop .T1).setChan (.pending 1 0x03000020)).setHost [0xdeadbeef]))).map (fun s => (s.N, s.top)) =
      some (0, .T2) := by decide

/-! ### INIT (95_test_vectors.md section 5) -/

theorem test_init_reference :
    (nextOf (exec .init (State.reset.setMem refMemory))).map (·.S) = some sRef := by decide +kernel

/-- Key bytes 0 to 3 = 00 00 00 ff give `S[4]` = ff000000; nonce bytes 8 to 11 = 01 02 03 04 give `S[15]` = 04030201; with
`big` as with `little` (V-I3). -/
theorem test_init_byte_order :
    (nextOf (exec .init ((State.reset.setParams { State.reset.params with byteOrder := .big }).setMem
      [(0x03000003, 0xff), (0x03000028, 1), (0x03000029, 2), (0x0300002a, 3), (0x0300002b, 4)]))).map
        (fun s => (regRead s.S 4, regRead s.S 15)) = some (0xff000000, 0x04030201) := by decide +kernel

/-! ### QR (95_test_vectors.md section 4) -/

/-- V-Q1 (the source's inputs), V-Q4, V-Q5, V-Q6 and V-Q7; and V-Q8: `QR 1, 5, 9, 1` is refused. -/
theorem test_qr_vectors :
    firstFourOf (exec (.qr 0 1 2 3) (State.reset.setW (firstFour 0x11111111 0x01020304 0x9b8d6f43 0x01234567))) =
      some [0xea2a92f4, 0xcb1cf8ce, 0x4581472e, 0x5881c4bb] ∧
    firstFourOf (exec (.qr 0 1 2 3) (State.reset.setW (firstFour 0xffffffff 0xffffffff 0xffffffff 0xffffffff))) =
      some [0xf0000ffd, 0x88790878, 0x0110fdef, 0x010ffdf0] ∧
    firstFourOf (exec (.qr 0 1 2 3) (State.reset.setW (firstFour 1 0 0 0))) =
      some [0x10000001, 0x80808808, 0x01010110, 0x01000110] ∧
    firstFourOf (exec (.qr 0 1 2 3) (State.reset.setW (firstFour 0 0 0 1))) =
      some [0x10000000, 0x80800808, 0x01010010, 0x01000010] ∧
    firstFourOf (exec (.qr 0 1 2 3) (State.reset.setW (firstFour 0xffffffff 1 0x80000000 0x80000000))) =
      some [0x08001800, 0x4c4c0444, 0x80988008, 0x00980008] ∧
    refusalOf (exec (.qr 1 5 9 1) State.reset) = some .repeatedIndex := by decide +kernel

/-- V-Q2: index routing in a full working block. -/
theorem test_qr_routing :
    (nextOf (exec (.qr 2 7 8 13) (State.reset.setW
      #v[0x879531e0, 0xc5ecf37d, 0x516461b1, 0xc9a62f8a, 0x44c20ef3, 0x3390af7f, 0xd9fc690b, 0x2a5f714c,
         0x53372767, 0xb00a5631, 0x974c541a, 0x359e9963, 0x5c971061, 0x3d631689, 0x2098d9d6, 0x91dbd320]))).map (·.W) =
    some #v[0x879531e0, 0xc5ecf37d, 0xbdb886dc, 0xc9a62f8a, 0x44c20ef3, 0x3390af7f, 0xd9fc690b, 0xcfacafd2,
         0xe46bea80, 0xb00a5631, 0x974c541a, 0x359e9963, 0x5c971061, 0xccc07c79, 0x2098d9d6, 0x91dbd320] := by
  decide +kernel

/-- V-Q9: the inverse of V-Q1. -/
theorem test_qr_inverse :
    quarterInverse ⟨0xea2a92f4, 0xcb1cf8ce, 0x4581472e, 0x5881c4bb⟩ = ⟨0x11111111, 0x01020304, 0x9b8d6f43, 0x01234567⟩ := by
  decide +kernel

/-! ### COPY, ADDS, SER, CTRINC (95_test_vectors.md section 6, 42_block_compressor.md R130, R136, R138) -/

/-- With `S = S_ref`, after COPY `W[12] = 1` and `W[13] = 09000000` (R130). -/
theorem test_copy :
    (nextOf (exec .copy (State.reset.setS sRef))).map (fun s => (regRead s.W 12, regRead s.W 13)) =
      some (0x00000001, 0x09000000) := by decide +kernel

/-- Mixed word 12 plus `S[12]` (R136), and a sum that wraps without a carry into the next word. -/
theorem test_adds :
    (nextOf (exec .adds ((State.reset.setS sRef).setW
      #v[0x837778ab, 0xffffffff, 0, 0, 0, 0, 0, 0, 0, 0, 0, 0, 0xd19c12b4, 0, 0, 0]))).map
        (fun s => [regRead s.W 0, regRead s.W 1, regRead s.W 2, regRead s.W 12]) =
      some [0xe4e7f110, 0x3320646d, 0x79622d32, 0xd19c12b5] := by decide +kernel

/-- `O[0] = 0xe4e7f110` is written as bytes `10 f1 e7 e4` (R138), the last word at `OUT + 60`, nothing at `OUT + 64`. -/
theorem test_ser :
    (nextOf (exec .ser (State.reset.setW #v[0xe4e7f110, 0, 0, 0, 0, 0, 0, 0, 0, 0, 0, 0, 0, 0, 0, 0x4e3c50a2]))).map
        (fun s => (bytesAt s.mem 0x03000040 4, bytesAt s.mem 0x0300007c 5)) =
      some ([0x10, 0xf1, 0xe7, 0xe4], [0xa2, 0x50, 0x3c, 0x4e, 0x00]) := by decide +kernel

/-- The same word with HOST_BYTE_ORDER `big` (V-B1b). -/
theorem test_ser_big :
    (nextOf (exec .ser ((State.reset.setParams { State.reset.params with byteOrder := .big }).setW
      (firstFour 0xe4e7f110 0x15593bd1 0 0)))).map (fun s => bytesAt s.mem 0x03000040 8) =
      some [0xe4, 0xe7, 0xf1, 0x10, 0x15, 0x59, 0x3b, 0xd1] := by decide +kernel

/-- V-B6, V-B4: the counter wraps and nothing is carried into `S[13]`. -/
theorem test_ctrinc :
    (nextOf (exec .ctrinc (State.reset.setS (withCounter sRef 0xffffffff)))).map
        (fun s => (regRead s.S 12, regRead s.S 13)) = some (0x00000000, 0x09000000) := by decide +kernel

/-! ### The block function (V-B1, V-B2, V-B3) -/

/-- V-B2: the double round of `S_ref`. -/
theorem test_double_round :
    doubleRound sRef =
      #v[0xcd52e917, 0x85ab03b4, 0xb3457395, 0xf96de7dd, 0xc4b7cd22, 0x5c2e187a, 0xc95eb461, 0x316c801a,
         0x7bf7d740, 0x7eddd644, 0xf1a1bdf5, 0x761246ca, 0x6b0d58a3, 0x6798471a, 0xd737f167, 0xf173888d] := by decide +kernel

/-- V-B1: the output words of the reference block. -/
theorem test_block_words :
    blockWords sRef =
      #v[0xe4e7f110, 0x15593bd1, 0x1fdd0f50, 0xc47120a3, 0xc7f4d1c7, 0x0368c033, 0x9aaa2204, 0x4e6cd4c3,
         0x466482d2, 0x09aa9f07, 0x05d7c214, 0xa2028bd9, 0xd19c12b5, 0xb94e16de, 0xe883d0cb, 0x4e3c50a2] := by decide +kernel

/-- V-B3: the output bytes of the all-zero key and nonce. -/
theorem test_block_bytes_B3 : blockBytes .little zeroKeyState = bytesB3 := by decide +kernel

/-! ### Sequencer (43_keystream_driver.md section 1, 95_test_vectors.md P3, P4) -/

/-- The first thing after reset is the request of SIG.KEY (70_reset_and_hazards.md R221). -/
theorem test_first_request : (nextOf (step State.reset)).map (·.chan) = some (.pending 0 0x03000000) := by decide +kernel

/-- P4: with `N = 0` the response at T4 leads past the loop. P3: with `N = 2` it leads into the block. -/
theorem test_loop_entry :
    (nextOf (step (((atTop .T4).setChan (.pending 3 0x03000040)).setHost [0]))).map (·.top) = some .T6 ∧
    (nextOf (step ((((atTop .T4).setN 2).setChan (.pending 3 0x03000040)).setHost [0]))).map (fun s => (s.top, s.t)) =
      some (.T5, 0) := by decide +kernel

/-- P3: CTRINC of the first of two blocks goes back to `t = 0`, of the second to T6. -/
theorem test_loop_end :
    (nextOf (step (inBlock 83 0 2))).map (fun s => (s.top, s.t, s.i)) = some (.T5, 0, 1) ∧
    (nextOf (step (inBlock 83 1 2))).map (fun s => (s.top, s.t, s.i)) = some (.T6, 0, 2) := by decide +kernel

/-- R43: a base that is no multiple of 4, two buffers that overlap, and a buffer that wraps are refused. -/
theorem test_launch_premises :
    (refusalOf (step (State.reset.setParams ⟨0x03000002, 0x03000040, 0x03000080, .little⟩)) = some .launchPremise ∧
     refusalOf (step (State.reset.setParams ⟨0x03000000, 0x0300001c, 0x03000080, .little⟩)) = some .launchPremise) ∧
    refusalOf (step (State.reset.setParams ⟨0x03000000, 0x03000020, 0xffffffc4, .little⟩)) = some .launchPremise ∧
    refusalOf (step (State.reset.setParams ⟨0x03000000, 0x03000020, 0xffffffc0, .little⟩)) = none := by decide +kernel

/-- A reserved word put in place of the scheduled one is refused by name (R76). -/
theorem test_reserved_word_refused :
    refusalOf (step (State.reset.withFetchWord 32 0x21002300)) = some (.reservedWord .qrRepeatedIndex) := by decide +kernel

/-- An unlisted byte reads 0x00, and writing that value removes the entry (canonical form). -/
theorem test_memory_canonical :
    memWrite (memWrite [] 8 7) 4 9 = [(4, 9), (8, 7)] ∧ memWrite [(4, 9), (8, 7)] 4 0 = [(8, 7)] ∧
    Memory.wf State.reset.mem = true ∧ Memory.wf [(8, 7), (4, 9)] = false := by decide

/-! ### Assembler (30_encoding.md R83, R84; 95_test_vectors.md P1, P2) -/

/-- P1's line with its comment; a repeated index and a register 16 are refused. -/
theorem test_assemble_line :
    assemble ["QR 2, 7, 8, 13        ; 0x21278D00".toList] = some [.qr 2 7 8 13] ∧
    assemble ["QR 1, 5, 9, 1".toList] = none ∧ assemble ["QR 1, 5, 9, 16".toList] = none := by decide +kernel

/-- P2's listing is BLOCK. -/
theorem test_assemble_block :
    assemble ["COPY                  ; 0x20000000   t = 0".toList, ".rept 10              ;".toList,
      "QR 0, 4, 8, 12".toList, "QR 1, 5, 9, 13".toList, "QR 2, 6, 10, 14".toList, "QR 3, 7, 11, 15".toList,
      "QR 0, 5, 10, 15".toList, "QR 1, 6, 11, 12".toList, "QR 2, 7, 8, 13".toList, "QR 3, 4, 9, 14".toList,
      ".endr".toList, "ADDS".toList, "SER".toList, "CTRINC".toList] = some blockOps := by decide +kernel

/-! ### Witnesses: concrete states and operands that meet the hypotheses of each statement, at the ends of their ranges -/

/-- A platform whose last buffer ends at the top of the address space. -/
def topParams : Params := ⟨0xffffff80, 0xffffffa0, 0xffffffc0, .big⟩

/-- The state after reset on that platform. -/
def topState : State := State.reset.setParams topParams

/-- Memory with the block of the all-zero key and nonce in `OUT` (V-B3). -/
def memB3 : Memory := memWriteList [] 0x03000040 bytesB3

/-- A state in the second of two blocks, before QR number 40: one block of the all-zero key is in `OUT`. -/
def midRun : State :=
  (((inBlock 40 1 2).setS (withCounter zeroKeyState 2)).setW (firstRounds 39 (withCounter zeroKeyState 2))).setMem memB3

/-- A state before the CTRINC of the only block of a run. -/
def beforeCtrinc : State := (((inBlock 83 0 1).setS zeroKeyState).setW (blockWords zeroKeyState)).setMem memB3

/-- A state at a position past the loop of a run of one block, with a channel. -/
def pastLoop (p : Top) (c : Chan) : State :=
  (((((atTop p).setI 1).setN 1).setS (withCounter zeroKeyState 2)).setMem memB3).setChan c

/-- The request of SIG.OUT on the platform of reset. -/
def outRequest : Chan := .pending 3 0x03000040

/-- The state after reset, moved to a position with a request pending and responses to come. -/
def waitingAt (p : Top) (c : Chan) (l : List Word) : State := ((atTop p).setChan c).setHost l

theorem wit_DecodeEncodeRoundTrip :
    (Instr.qr 15 14 13 12).wellFormed = true ∧ (Instr.qr 0 1 2 3).wellFormed = true ∧ Instr.halt.wellFormed = true := by
  decide

theorem wit_AcceptedWordIsItsEncoding : decode 0x21FEDC00 = .ok (.qr 15 14 13 12) ∧ decode 0x01000003 = .ok .sigOut := by
  decide

theorem wit_ReservedExactlyWhenNoRow :
    rowOf (.qr 0 0 0 0) ∈ opcodeTable ∧ (0x21FEDC00 : Word) &&& (rowOf (.qr 0 0 0 0)).mask = (rowOf (.qr 0 0 0 0)).mtch ∧
    rowOf .copy ∈ opcodeTable ∧ (0x20000000 : Word) &&& (rowOf .copy).mask = (rowOf .copy).mtch := by decide

theorem wit_AddAndXorOfWords : (1 : Word) ≠ 0 ∧ (0xFFFFFFFF : Word) ≠ 0 ∧ 31 < 32 := by decide

theorem wit_RotationIsCircular : 0 < 32 ∧ (31 < 32 ∧ 1 ≤ 31) ∧ (1 < 32 ∧ 1 ≤ 1) := by decide

theorem wit_LittleEndianDecode :
    (∃ u, exec .init topState = .next u) ∧ topState.params.byteOrder = .big ∧ (∃ u, exec .init midRun = .next u) ∧
    midRun.params.byteOrder = .little :=
  ⟨exists_next (by decide +kernel), rfl, exists_next (by decide +kernel), rfl⟩

theorem wit_SerialisationOrder : ser32 .little 0xe4e7f110 = [0x10, 0xf1, 0xe7, 0xe4] := by decide

theorem wit_ArxStageEffect :
    ((0 : RegIdx) ≠ 4 ∧ (0 : RegIdx) ≠ 12 ∧ (4 : RegIdx) ≠ 12) ∧ ((15 : RegIdx) ≠ 0 ∧ (15 : RegIdx) ≠ 12) := by decide

theorem wit_QuarterRoundResult :
    DistinctIndices 0 4 8 12 ∧ DistinctIndices 15 14 13 12 ∧
    ((0 : RegIdx) ≠ 15 ∧ (0 : RegIdx) ≠ 14 ∧ (0 : RegIdx) ≠ 13 ∧ (0 : RegIdx) ≠ 12) := by decide

theorem wit_RepeatedIndicesRefused :
    ¬ DistinctIndices 1 5 9 1 ∧ ¬ DistinctIndices 0 0 2 3 ∧ decode (microWord 1) = .ok (.qr 0 4 8 12) ∧
    decode (microWord 80) = .ok (.qr 3 4 9 14) := by decide +kernel

theorem wit_DisjointQuarterRoundsCommute :
    DistinctIndices 0 4 8 12 ∧ DistinctIndices 3 7 11 15 ∧
    ∀ x ∈ [(0 : RegIdx), 4, 8, 12], ∀ y ∈ [(3 : RegIdx), 7, 11, 15], x ≠ y := by decide

/-- A key that ends at the top of the address space, and a nonce that does. -/
theorem wit_InitResult :
    (topState.params.keyAddr.toNat + 32 ≤ 2 ^ 32 ∧ topState.params.nonceAddr.toNat + 12 ≤ 2 ^ 32) ∧
    ((0xffffffe0 : Word).toNat + 32 ≤ 2 ^ 32 ∧ (0xfffffff4 : Word).toNat + 12 ≤ 2 ^ 32) := by decide

theorem wit_InitByteMap : ∃ u, exec .init topState = .next u := exists_next (by decide +kernel)

theorem wit_InitHasNoHiddenInput :
    (∀ k, k < 32 → memRead topState.mem (topState.params.keyAddr.toNat + k) =
      memRead midRun.mem (midRun.params.keyAddr.toNat + k)) ∧
    (∀ k, k < 12 → memRead topState.mem (topState.params.nonceAddr.toNat + k) =
      memRead midRun.mem (midRun.params.nonceAddr.toNat + k)) ∧
    (∃ u, exec .init topState = .next u) ∧ (∃ u, exec .init midRun = .next u) ∧ topState.W ≠ midRun.W :=
  ⟨by decide +kernel, by decide +kernel, exists_next (by decide +kernel), exists_next (by decide +kernel), by decide +kernel⟩

/-- Each side of the stop: a key, a nonce and an output buffer one byte too high; and a platform on which both complete. -/
theorem wit_BuffersOutsideTheSpaceStop :
    exec .init (State.reset.setParams ⟨0xffffffe1, 0, 64, .little⟩) = .fault .addressOutsideSpace ∧
    exec .init (State.reset.setParams ⟨0, 0xfffffff5, 64, .little⟩) = .fault .addressOutsideSpace ∧
    exec .ser (State.reset.setParams ⟨0, 64, 0xffffffc1, .little⟩) = .fault .addressOutsideSpace ∧
    admissible topState.params = true :=
  ⟨eq_fault (by decide +kernel), eq_fault (by decide +kernel), eq_fault (by decide +kernel), by decide⟩

theorem wit_SerResult :
    (Memory.wf topState.mem = true ∧ topState.params.outAddr.toNat + 64 ≤ 2 ^ 32 ∧ topState.params.byteOrder = .big) ∧
    (Memory.wf midRun.mem = true ∧ midRun.params.outAddr.toNat + 64 ≤ 2 ^ 32 ∧ midRun.params.byteOrder = .little) ∧
    ¬ (midRun.params.outAddr.toNat ≤ 0x03000080 ∧ 0x03000080 < midRun.params.outAddr.toNat + 64) := by decide +kernel

theorem wit_CtrincResult :
    regRead ((State.reset.setS (withCounter sRef 0xFFFFFFFF)).S) 12 = 0xFFFFFFFF ∧ (13 : RegIdx) ≠ 12 := by decide +kernel

theorem wit_BlockEffect :
    Memory.wf midRun.mem = true ∧ midRun.params.outAddr.toNat + 64 ≤ 2 ^ 32 ∧ Memory.wf topState.mem = true ∧
    topState.params.outAddr.toNat + 64 ≤ 2 ^ 32 := by decide +kernel

/-- Two states that agree in `S` and differ in `W`, memory, addresses and control registers. -/
theorem wit_BlockDependsOnlyOnCipherState :
    Memory.wf (topState.setS midRun.S).mem = true ∧ Memory.wf midRun.mem = true ∧ (topState.setS midRun.S).S = midRun.S ∧
    ((topState.setS midRun.S).setParams ⟨0, 64, 128, .little⟩).params.byteOrder = midRun.params.byteOrder ∧
    (∃ u, execList blockOps ((topState.setS midRun.S).setParams ⟨0, 64, 128, .little⟩) = .next u) ∧
    (∃ u, execList blockOps midRun = .next u) :=
  ⟨by decide +kernel, by decide +kernel, rfl, rfl, exists_next (by decide +kernel), exists_next (by decide +kernel)⟩

theorem wit_RepeatedBlocks :
    (Memory.wf topState.mem = true ∧ topState.params.outAddr.toNat + 64 ≤ 2 ^ 32) ∧ 1 ≤ 1 ∧ 63 < 64 := by decide +kernel

/-- Both halves: a SIG operation that issues, and a pending request with and without a response. -/
theorem wit_SignalHalves :
    (Instr.sigOut ∈ [Instr.sigKey, .sigNonce, .sigCount, .sigOut] ∧ ∃ u, exec .sigOut State.reset = .next u) ∧
    (admissible (waitingAt .T6 outRequest []).params = true ∧ (waitingAt .T6 outRequest []).chan = .pending 3 0x03000040 ∧
      (waitingAt .T6 outRequest []).host = [] ∧ ∃ u, step (waitingAt .T6 outRequest []) = .next u) ∧
    (admissible (waitingAt .T2 (.pending 2 0) [5]).params = true ∧ (waitingAt .T2 (.pending 2 0) [5]).chan = .pending 2 0 ∧
      (waitingAt .T2 (.pending 2 0) [5]).host = 5 :: []) :=
  ⟨⟨by decide, exists_next (by decide)⟩, ⟨by decide, rfl, rfl, exists_next (by decide)⟩, by decide, rfl, rfl⟩

theorem wit_BlockedUntilAnswered :
    admissible (pastLoop .T6 outRequest).params = true ∧ Waiting (pastLoop .T6 outRequest) ∧
    (pastLoop .T6 outRequest).host = [] := ⟨by decide +kernel, ⟨3, 0x03000040, rfl⟩, rfl⟩

theorem wit_HaltedForever :
    admissible (pastLoop .T8 .pendingHalt).params = true ∧ (pastLoop .T8 .pendingHalt).chan = .pendingHalt :=
  ⟨by decide +kernel, rfl⟩

theorem wit_HaltIsItsOwnRequest :
    (pastLoop .T8 .pendingHalt).chan = .pendingHalt ∧ (pastLoop .T6 outRequest).chan = .pending 3 0x03000040 ∧
    (pastLoop .T7 .idle).chan = .idle := ⟨rfl, rfl, rfl⟩

/-- A scheduled word, a word put in place, a reserved word, and an operation of the opcode table. -/
theorem wit_StepRunsTheDecodedOperation :
    (admissible State.reset.params = true ∧ State.reset.chan = .idle ∧ fetchWord State.reset = some 0x01000000 ∧
      decode 0x01000000 = .ok .sigKey) ∧
    (fetchWord (State.reset.withFetchWord 32 0x21002300) = some 0x21002300 ∧
      decode 0x21002300 = .error .qrRepeatedIndex) ∧
    (fetchWord (inBlock 82 0 1) = some 0x23000000 ∧ decode 0x23000000 = .ok .ser) ∧
    decodeTableWord 32 0x21012300 = some (.qr 0 1 2 3) := by decide +kernel

/-- The hypotheses of the clause for a position with a response to come. -/
abbrev Answerable (s : State) (p : Top) : Prop :=
  admissible s.params = true ∧ some s.chan = requestAt s.params s.top ∧ s.host = 7 :: [] ∧ s.top = p

/-- Each clause: the five signal positions with a response, the loop test both ways, and no response. -/
theorem wit_SignalPositionsAdvance :
    Answerable (waitingAt .T0 (.pending 0 0x03000000) [7]) .T0 ∧ Answerable (waitingAt .T1 (.pending 1 0x03000020) [7]) .T1 ∧
    Answerable (waitingAt .T2 (.pending 2 0) [7]) .T2 ∧ Answerable (waitingAt .T6 outRequest [7]) .T6 ∧
    (Answerable ((waitingAt .T4 outRequest [7]).setN 1) .T4 ∧
      ((waitingAt .T4 outRequest [7]).setN 1).i.toNat < ((waitingAt .T4 outRequest [7]).setN 1).N.toNat) ∧
    (Answerable (waitingAt .T4 outRequest [7]) .T4 ∧
      ¬ (waitingAt .T4 outRequest [7]).i.toNat < (waitingAt .T4 outRequest [7]).N.toNat) ∧
    ((waitingAt .T0 (.pending 0 0x03000000) []).host = [] ∧
      ∃ u, step (waitingAt .T0 (.pending 0 0x03000000) []) = .next u) :=
  ⟨by decide, by decide, by decide, by decide, by decide, by decide, rfl, exists_next (by decide)⟩

/-- Each clause: inside a block, and after its last operation with the loop test both ways. -/
theorem wit_BlockPositionsAdvance :
    (admissible (inBlock 82 0 1).params = true ∧ OnSchedule (inBlock 82 0 1) ∧ (inBlock 82 0 1).top = .T5 ∧
      (inBlock 82 0 1).chan = .idle ∧ (inBlock 82 0 1).t.val < 83) ∧
    ((inBlock 83 0 2).t.val = 83 ∧ (add32 (inBlock 83 0 2).i 1).toNat < (inBlock 83 0 2).N.toNat) ∧
    ((inBlock 83 0 1).t.val = 83 ∧ ¬ (add32 (inBlock 83 0 1).i 1).toNat < (inBlock 83 0 1).N.toNat) := by decide +kernel

theorem wit_InitAndHaltPositionsAdvance :
    (admissible (atTop .T3).params = true ∧ OnSchedule (atTop .T3) ∧ (atTop .T3).chan = .idle ∧ (atTop .T3).top = .T3) ∧
    (OnSchedule (pastLoop .T7 .idle) ∧ (pastLoop .T7 .idle).chan = .idle ∧ (pastLoop .T7 .idle).top = .T7) := by
  decide +kernel

/-- The state after reset is a start of a run. -/
theorem wit_start_reset : Start State.reset := ⟨by decide, by decide, by decide, by decide, by decide, by decide⟩

/-- So is any state like it with responses to come, a used working block, memory with bytes in it, on another platform. -/
theorem wit_start_other : Start (((topState.setHost [1, 2, 5, 3, 4, 9]).setW sRef).setMem memB3) :=
  ⟨by decide, by decide, by decide, by decide, by decide, by decide +kernel⟩

theorem wit_InvariantsHoldAtLaunch : admissible topParams = true ∧ admissible State.reset.params = true := by decide

theorem wit_position_midRun : PositionInv midRun :=
  ⟨by decide +kernel, by decide +kernel, by decide +kernel, by decide +kernel, by decide +kernel, by decide +kernel,
   by decide +kernel, by decide +kernel⟩

theorem wit_position_beforeCtrinc : PositionInv beforeCtrinc :=
  ⟨by decide +kernel, by decide +kernel, by decide +kernel, by decide +kernel, by decide +kernel, by decide +kernel,
   by decide +kernel, by decide +kernel⟩

theorem wit_position_beforePostLoopRequest : PositionInv (pastLoop .T6 .idle) :=
  ⟨by decide +kernel, by decide +kernel, by decide +kernel, by decide +kernel, by decide +kernel, by decide +kernel,
   by decide +kernel, by decide +kernel⟩

theorem wit_position_postLoopRequest : PositionInv ((pastLoop .T6 outRequest).setHost [0]) :=
  ⟨by decide +kernel, by decide +kernel, by decide +kernel, by decide +kernel, by decide +kernel, by decide +kernel,
   by decide +kernel, by decide +kernel⟩

theorem wit_position_halted : PositionInv (pastLoop .T8 .pendingHalt) :=
  ⟨by decide +kernel, by decide +kernel, by decide +kernel, by decide +kernel, by decide +kernel, by decide +kernel,
   by decide +kernel, by decide +kernel⟩

theorem wit_position_reset : PositionInv State.reset :=
  ⟨by decide +kernel, by decide +kernel, by decide +kernel, by decide +kernel, by decide +kernel, by decide +kernel,
   by decide +kernel, by decide +kernel⟩

/-- From the second of two blocks, from the last CTRINC, from the post-loop response, from T8 and from reset there is a step. -/
theorem wit_PositionInvariantKept :
    (PositionInv midRun ∧ ∃ u, step midRun = .next u) ∧ (PositionInv beforeCtrinc ∧ ∃ u, step beforeCtrinc = .next u) ∧
    (PositionInv ((pastLoop .T6 outRequest).setHost [0]) ∧ ∃ u, step ((pastLoop .T6 outRequest).setHost [0]) = .next u) ∧
    (PositionInv (pastLoop .T8 .pendingHalt) ∧ ∃ u, step (pastLoop .T8 .pendingHalt) = .next u) ∧
    (PositionInv State.reset ∧ ∃ u, step State.reset = .next u) :=
  ⟨⟨wit_position_midRun, exists_next (by decide +kernel)⟩, ⟨wit_position_beforeCtrinc, exists_next (by decide +kernel)⟩,
   ⟨wit_position_postLoopRequest, exists_next (by decide +kernel)⟩, ⟨wit_position_halted, exists_next (by decide +kernel)⟩,
   ⟨wit_position_reset, exists_next (by decide +kernel)⟩⟩

theorem wit_CipherInvariantKept :
    (CipherInv midRun ∧ ∃ u, step midRun = .next u) ∧ (CipherInv beforeCtrinc ∧ ∃ u, step beforeCtrinc = .next u) ∧
    (CipherInv State.reset ∧ ∃ u, step State.reset = .next u) :=
  ⟨⟨⟨wit_position_midRun, by decide +kernel, by decide +kernel⟩, exists_next (by decide +kernel)⟩,
   ⟨⟨wit_position_beforeCtrinc, by decide +kernel, by decide +kernel⟩, exists_next (by decide +kernel)⟩,
   ⟨⟨wit_position_reset, by decide +kernel, by decide +kernel⟩, exists_next (by decide +kernel)⟩⟩

/-- A state of the platform of reset with V-B3's bytes in `OUT` holds the block of counter 1. -/
theorem wit_outHolds {s : State} (hm : s.mem = memB3) (hp : s.params = State.reset.params) : OutHolds s 1 := by
  have hi : withCounter (initFile memB3 (State.reset.params.keyAddr.toNat) (State.reset.params.nonceAddr.toNat)) 1 =
      zeroKeyState := by decide +kernel
  have ho : ∀ k, k < 64 → some (memRead memB3 (State.reset.params.outAddr.toNat + k)) = bytesB3[k]? := by decide +kernel
  intro k hk
  rw [initOf, hm, hp, hi]
  exact (ho k hk).trans (congrArg (·[k]?) test_block_bytes_B3.symm)

theorem wit_run_midRun : RunInv midRun :=
  ⟨⟨wit_position_midRun, by decide +kernel, by decide +kernel⟩, by decide +kernel, fun _ _ _ => wit_outHolds rfl rfl,
   fun _ h => absurd h (by decide +kernel), fun h => absurd h (by decide +kernel)⟩

theorem wit_run_beforeCtrinc : RunInv beforeCtrinc :=
  ⟨⟨wit_position_beforeCtrinc, by decide +kernel, by decide +kernel⟩, by decide +kernel,
   fun _ h => absurd h (by decide +kernel), fun _ _ => wit_outHolds rfl rfl, fun h => absurd h (by decide +kernel)⟩

theorem wit_run_beforePostLoopRequest : RunInv (pastLoop .T6 .idle) :=
  ⟨⟨wit_position_beforePostLoopRequest, by decide +kernel, by decide +kernel⟩, fun h => absurd h (by decide +kernel),
   fun h => absurd h (by decide +kernel), fun h => absurd h (by decide +kernel), fun _ _ => wit_outHolds rfl rfl⟩

theorem wit_run_postLoopRequest : RunInv ((pastLoop .T6 outRequest).setHost [0]) :=
  ⟨⟨wit_position_postLoopRequest, by decide +kernel, by decide +kernel⟩, fun h => absurd h (by decide +kernel),
   fun h => absurd h (by decide +kernel), fun h => absurd h (by decide +kernel), fun _ _ => wit_outHolds rfl rfl⟩

theorem wit_run_halted : RunInv (pastLoop .T8 .pendingHalt) :=
  ⟨⟨wit_position_halted, by decide +kernel, by decide +kernel⟩, fun h => absurd h (by decide +kernel),
   fun h => absurd h (by decide +kernel), fun h => absurd h (by decide +kernel), fun _ _ => wit_outHolds rfl rfl⟩

theorem wit_run_reset : RunInv State.reset :=
  ⟨⟨wit_position_reset, by decide +kernel, by decide +kernel⟩, fun h => absurd h (by decide +kernel),
   fun h => absurd h (by decide +kernel), fun h => absurd h (by decide +kernel), fun h => absurd h (by decide +kernel)⟩

theorem wit_RunInvariantKept :
    (RunInv midRun ∧ ∃ u, step midRun = .next u) ∧ (RunInv beforeCtrinc ∧ ∃ u, step beforeCtrinc = .next u) ∧
    (RunInv (pastLoop .T8 .pendingHalt) ∧ ∃ u, step (pastLoop .T8 .pendingHalt) = .next u) :=
  ⟨⟨wit_run_midRun, exists_next (by decide +kernel)⟩, ⟨wit_run_beforeCtrinc, exists_next (by decide +kernel)⟩,
   ⟨wit_run_halted, exists_next (by decide +kernel)⟩⟩

theorem wit_MemoryStaysCanonical :
    Memory.wf (inBlock 82 0 1).mem = true ∧ (∃ u, step (inBlock 82 0 1) = .next u) ∧ Memory.wf memB3 = true :=
  ⟨by decide +kernel, exists_next (by decide +kernel), by decide +kernel⟩

theorem wit_NoStepFaults : PositionInv midRun ∧ PositionInv (pastLoop .T8 .pendingHalt) :=
  ⟨wit_position_midRun, wit_position_halted⟩

theorem wit_OnlyInitAndCtrincWriteTheCipherState :
    (∃ u, exec .ctrinc State.reset = .next u) ∧ Instr.ctrinc ≠ .init ∧ (∃ u, exec .ser State.reset = .next u) ∧
    Instr.ser ≠ .init ∧ Instr.ser ≠ .ctrinc ∧ (11 : RegIdx) ≠ 12 ∧
    (PositionInv midRun ∧ initialised midRun.top = true ∧ (∃ u, step midRun = .next u) ∧
      decode (microWord midRun.t) ≠ .ok .ctrinc) :=
  ⟨exists_next (by decide +kernel), by decide, exists_next (by decide +kernel), by decide, by decide, by decide,
   wit_position_midRun, rfl, exists_next (by decide +kernel), by decide +kernel⟩

theorem wit_WorkingBlockAccess :
    (∃ u, exec (.qr 0 4 8 12) State.reset = .next u) ∧ (∃ u, exec .init State.reset = .next u) ∧ Instr.init ≠ .adds ∧
    Instr.init ≠ .ser ∧ Instr.init ≠ .copy ∧ (∀ a b c d, Instr.init ≠ .qr a b c d) ∧
    (∃ u, exec .copy midRun = .next u) ∧ Instr.copy ≠ .adds ∧ Instr.copy ≠ .ser ∧ (∀ a b c d, Instr.copy ≠ .qr a b c d) :=
  ⟨exists_next (by decide +kernel), exists_next (by decide +kernel), by decide, by decide, by decide,
   (fun _ _ _ _ h => nomatch h), exists_next (by decide +kernel), by decide, by decide, fun _ _ _ _ h => nomatch h⟩

theorem wit_OnlySerWritesMemory :
    (∃ u, exec .ser midRun = .next u) ∧ (∃ u, exec .copy midRun = .next u) ∧ Instr.copy ≠ .ser ∧
    Memory.wf midRun.mem = true ∧ (∃ u, step midRun = .next u) ∧
    ¬ (midRun.params.outAddr.toNat ≤ 0x0300003f ∧ 0x0300003f < midRun.params.outAddr.toNat + 64) :=
  ⟨exists_next (by decide +kernel), exists_next (by decide +kernel), by decide, by decide +kernel,
   exists_next (by decide +kernel), by decide +kernel⟩

/-- A platform that is refused for each premise, and platforms that are admitted. -/
theorem wit_LaunchPremises :
    admissible ⟨0x03000000, 0x03000020, 0xffffffc4, .little⟩ = false ∧
    admissible ⟨0x03000000, 0x0300001c, 0x03000080, .little⟩ = false ∧
    admissible ⟨0x03000002, 0x03000040, 0x03000080, .little⟩ = false ∧ admissible topParams = true := by decide +kernel

theorem wit_ResetAndLaunchState :
    admissible topParams = true ∧ admissible (pastLoop .T8 .pendingHalt).params = true ∧
    Memory.wf (pastLoop .T8 .pendingHalt).mem = true := by decide +kernel

/-- A start of a run with a zero count; `wit_InvariantsHoldAtLaunch` has an admissible platform for a launch. -/
theorem wit_ZeroIterations :
    Start (State.reset.setHost [1, 2, 0, 3, 4]) ∧ (State.reset.setHost [1, 2, 0, 3, 4]).host = 1 :: 2 :: 0 :: 3 :: 4 :: [] :=
  ⟨⟨by decide, by decide, by decide, by decide, by decide, by decide⟩, rfl⟩

/-- Starts of a run with counts 5 and 2^32 - 1. -/
theorem wit_FinalBlockOfARun :
    (Start (((topState.setHost [1, 2, 5, 3, 4, 9]).setW sRef).setMem memB3) ∧
      (((topState.setHost [1, 2, 5, 3, 4, 9]).setW sRef).setMem memB3).host = 1 :: 2 :: 5 :: 3 :: 4 :: [9] ∧
      (5 : Word) ≠ 0) ∧
    (Start (State.reset.setHost [0, 0, 0xffffffff, 0, 0]) ∧ (0xffffffff : Word) ≠ 0) :=
  ⟨⟨wit_start_other, rfl, by decide⟩, ⟨by decide, by decide, by decide, by decide, by decide, by decide⟩, by decide⟩

theorem wit_RequestTraceOfARun :
    Start (State.reset.setHost [1, 2, 0, 3, 4]) ∧ (State.reset.setHost [1, 2, 0, 3, 4]).host = 1 :: 2 :: 0 :: 3 :: 4 :: [] :=
  wit_ZeroIterations

theorem wit_OperationsOfARun :
    Start (State.reset.setHost [1, 2, 0, 3, 4]) ∧ (State.reset.setHost [1, 2, 0, 3, 4]).host = 1 :: 2 :: 0 :: 3 :: 4 :: [] :=
  wit_ZeroIterations

theorem wit_DiscardedResponsesDoNotMatter : Start State.reset := wit_start_reset

theorem wit_DriverComposesTheBlock :
    Start (((topState.setHost [1, 2, 5, 3, 4, 9]).setW sRef).setMem memB3) ∧
    (((topState.setHost [1, 2, 5, 3, 4, 9]).setW sRef).setMem memB3).host = 1 :: 2 :: 5 :: 3 :: 4 :: [9] :=
  ⟨wit_start_other, rfl⟩

/-- Each row of R55: before the loop, in the window, and after the post-loop request. -/
theorem wit_HostSeesOutput :
    (RunInv State.reset ∧ State.reset.top = .T0) ∧ (RunInv midRun ∧ midRun.N ≠ 0 ∧ midRun.top = .T5) ∧
    (RunInv (pastLoop .T6 .idle) ∧ (pastLoop .T6 .idle).N ≠ 0 ∧ (pastLoop .T6 .idle).chan = .idle) ∧
    (RunInv ((pastLoop .T6 outRequest).setHost [0]) ∧ ((pastLoop .T6 outRequest).setHost [0]).chan ≠ .idle) ∧
    (RunInv (pastLoop .T8 .pendingHalt) ∧ (pastLoop .T8 .pendingHalt).N ≠ 0) ∧
    ¬ (midRun.params.outAddr.toNat ≤ 0x03000080 ∧ 0x03000080 < midRun.params.outAddr.toNat + 64) :=
  ⟨⟨wit_run_reset, rfl⟩, ⟨wit_run_midRun, by decide +kernel, rfl⟩, ⟨wit_run_beforePostLoopRequest, by decide +kernel, rfl⟩,
   ⟨wit_run_postLoopRequest, by decide +kernel⟩, ⟨wit_run_halted, by decide +kernel⟩, by decide +kernel⟩

theorem wit_OutputIsStable :
    PositionInv ((pastLoop .T6 outRequest).setHost [0]) ∧ ((pastLoop .T6 outRequest).setHost [0]).top = .T6 ∧
    ∃ u, run 2 ((pastLoop .T6 outRequest).setHost [0]) = .next u :=
  ⟨wit_position_postLoopRequest, rfl, exists_next (by decide +kernel)⟩

end Sys2Proof.Tests
end

/-!
Who writes the cipher state (10_state.md R13): what an operation and a step can do to `S`, and which operations the schedule
holds past INIT.
-/
namespace Sys2Proof.Machine

/-- Everything a completed operation can do to the cipher state. -/
theorem exec_S_cases {i : Instr} {s u : State} (h : exec i s = .next u) :
    u.S = s.S ∨ (i = .init ∧ u.S = initOf s) ∨ (i = .ctrinc ∧ u.S = counterNext s.S) := by
  rcases exec_next_cases h with ⟨_, _, _, rfl⟩ | ⟨_, rfl⟩ | ⟨rfl, rfl⟩ | ⟨_, rfl⟩ | ⟨_, _, _, _, _, _, rfl⟩ | ⟨_, rfl⟩ |
    ⟨_, _, rfl⟩ | ⟨rfl, rfl⟩ <;> simp

/-- CTRINC's new cipher state differs in word 12 only (42_block_compressor.md R140). -/
theorem regRead_counterNext_other (v : RegFile) {k : RegIdx} (hk : k ≠ 12) : regRead (counterNext v) k = regRead v k :=
  regRead_regWrite_other v _ hk

/-- Everything a step can do to the cipher state: only the INIT or the CTRINC that it performs changes it. -/
theorem step_S_cases {s u : State} (h : step s = .next u) :
    u.S = s.S ∨ ∃ w i, fetchWord s = some w ∧ decode w = .ok i ∧
      ((i = .init ∧ u.S = initOf s) ∨ (i = .ctrinc ∧ u.S = counterNext s.S)) := by
  obtain ⟨-, ⟨-, rfl⟩ | ⟨-, -, rfl⟩ | ⟨-, r, rest, -, rfl⟩ | ⟨-, -, rfl⟩ | ⟨-, w, i, x, hf, hd, hx, rfl⟩⟩ :=
    step_next_cases h
  · exact .inl rfl
  · exact .inl rfl
  · obtain ⟨-, hS, -⟩ := respond_frame r (s.setHost rest)
    exact .inl hS
  · exact .inl rfl
  · obtain ⟨-, hS, -⟩ := complete_frame x
    rw [hS]
    exact (exec_S_cases hx).imp_right fun hi => ⟨w, i, hf, hd, hi⟩

/-- The block micro-program holds no INIT (30_encoding.md R78). -/
theorem microInstr_ne_init (t : Fin 84) : microInstr t ≠ .init := by
  revert t; decide +kernel

/-- Past INIT the schedule holds SIG.OUT, HALT and the micro-program (30_encoding.md R77). -/
theorem decode_scheduleWord_of_initialised {top : Top} {t : Fin 84} {w : Word} {i : Instr}
    (hinit : initialised top = true) (hw : scheduleWord top t = some w) (hd : decode w = .ok i) :
    i = .sigOut ∨ i = .halt ∨ (top = .T5 ∧ w = microWord t ∧ i = microInstr t) := by
  cases top with
  | T0 | T1 | T2 | T3 => cases hinit
  | T4 | T6 =>
    cases hw
    exact .inl (Except.ok.inj (hd.symm.trans (by decide)))
  | T5 =>
    cases hw
    exact .inr (.inr ⟨rfl, rfl, Except.ok.inj (hd.symm.trans (decode_microWord t))⟩)
  | T7 =>
    cases hw
    exact .inr (.inl (Except.ok.inj (hd.symm.trans (by decide))))
  | T8 => cases hw

/-- A step past INIT leaves the cipher state, or it is the step of the micro-program that performs CTRINC. -/
theorem step_S_of_initialised {s u : State} (hs : OnSchedule s) (hinit : initialised s.top = true)
    (h : step s = .next u) :
    u.S = s.S ∨ ((s.top = .T5 ∧ decode (microWord s.t) = .ok .ctrinc) ∧ u.S = counterNext s.S) := by
  rcases step_S_cases h with hS | ⟨w, i, hf, hd, hi⟩
  · exact .inl hS
  · have hw : scheduleWord s.top s.t = some w := by rwa [fetchWord, hs] at hf
    have hcases := decode_scheduleWord_of_initialised hinit hw hd
    rcases hi with ⟨rfl, -⟩ | ⟨rfl, hS⟩
    · obtain hi | hi | ⟨-, -, hi⟩ := hcases
      · cases hi
      · cases hi
      · exact absurd hi.symm (microInstr_ne_init s.t)
    · obtain hi | hi | ⟨htop, rfl, -⟩ := hcases
      · cases hi
      · cases hi
      · exact .inr ⟨⟨htop, hd⟩, hS⟩

/-- Settles O44: by what an operation and what a step past INIT can do to `S`. -/
theorem onlyInitAndCtrincWriteTheCipherState : Obligations.OnlyInitAndCtrincWriteTheCipherState := by
  refine ⟨fun i s u h => ?operation, fun s u hpos hinit h => ?step⟩
  case operation =>
    rcases exec_S_cases h with hS | ⟨hi, -⟩ | ⟨hi, hS⟩
    · exact ⟨fun _ k _ => by rw [hS], fun _ _ => by rw [hS]⟩
    · exact ⟨fun hne => absurd hi hne, fun hne => absurd hi hne⟩
    · exact ⟨fun _ k hk => by rw [hS, regRead_counterNext_other _ hk], fun _ hne => absurd hi hne⟩
  case step =>
    rcases step_S_of_initialised hpos.schedule hinit h with hS | ⟨hctrinc, hS⟩
    · exact ⟨fun k _ => by rw [hS], fun _ => by rw [hS]⟩
    · exact ⟨fun k hk => by rw [hS, regRead_counterNext_other _ hk], fun hne => absurd hctrinc hne⟩

end Sys2Proof.Machine

/-!
Little-endian decoding of the key and nonce bytes (20_memory.md R45): the value of `le32`, and the words INIT decodes with it.
-/
namespace Sys2Proof.Machine

/-- Four bytes make no carry out of 32 bits. -/
theorem le32_toNat (b0 b1 b2 b3 : Byte) :
    (le32 b0 b1 b2 b3).toNat = b0.toNat + 2 ^ 8 * b1.toNat + 2 ^ 16 * b2.toNat + 2 ^ 24 * b3.toNat := by
  have h0 := b0.isLt
  have h1 := b1.isLt
  have h2 := b2.isLt
  have h3 := b3.isLt
  rw [le32, BitVec.toNat_ofNat]
  omega

/-- Words 4 to 11 of INIT's file are the words at the key's address (40_state_init.md R100). -/
theorem regRead_initFile_key (m : Memory) (a n : Nat) (k : Fin 8) :
    regRead (initFile m a n) ⟨4 + k.val, by omega⟩ = memReadLe32 m (a + 4 * k.val) := by
  fin_cases k <;> rfl

/-- Words 13 to 15 of INIT's file are the words at the nonce's address (40_state_init.md R100). -/
theorem regRead_initFile_nonce (m : Memory) (a n : Nat) (k : Fin 3) :
    regRead (initFile m a n) ⟨13 + k.val, by omega⟩ = memReadLe32 m (n + 4 * k.val) := by
  fin_cases k <;> rfl

/-- Settles O7: INIT's file is read at the key's and the nonce's words, and `initFile` takes no byte order. -/
theorem littleEndianDecode : Obligations.LittleEndianDecode := by
  refine ⟨fun s u h => ?init, le32_toNat, by decide, by decide⟩
  case init =>
    obtain ⟨-, rfl⟩ := execInit_next.mp h
    exact ⟨regRead_initFile_key _ _ _, regRead_initFile_nonce _ _ _⟩

end Sys2Proof.Machine

/-!
The effect of INIT (40_state_init.md R100).
-/
namespace Sys2Proof.Machine

/-- Settles O14: by when INIT completes (`execInit_next`) and what its file holds at each word. -/
theorem initResult : Obligations.InitResult := by
  refine ⟨fun s hkey hnonce => ?effect, rfl, fun _ => rfl⟩
  case effect =>
    have hnext : exec .init s = .next (s.setS (initOf s)) := execInit_next.mpr ⟨⟨hkey, hnonce⟩, rfl⟩
    exact ⟨initOf s, hnext, rfl, rfl, rfl, rfl, regRead_initFile_key _ _ _, rfl, regRead_initFile_nonce _ _ _⟩

end Sys2Proof.Machine

/-!
The Quarter-Round Mixer (41_quarter_round.md): what an ARX stage leaves in each register (R113) and what QR leaves in the
state (R114).
-/
namespace Sys2Proof.Machine

/-- Settles O9: each part is one branch of what a register reads after the stage (`regRead_arx`). -/
theorem arxStageEffect : Obligations.ArxStageEffect := by
  intro x y z r v hxy hxz hyz
  refine ⟨?sum, ?rotated, ?addend, fun k hkx hkz => ?frame⟩
  case sum => rw [regRead_arx hxz, if_neg hxz, if_pos rfl]
  case rotated => rw [regRead_arx hxz, if_pos rfl]
  case addend => rw [regRead_arx hxz, if_neg hyz, if_neg hxy.symm]
  case frame => rw [regRead_arx hxz, if_neg hkz, if_neg hkx]

/-- Settles O10: QR completes with the quarter round of `W`, which computes `quarterWords` on its four registers and touches
no other. -/
theorem quarterRoundResult : Obligations.QuarterRoundResult := by
  refine ⟨fun a b c d s h => ?effect, by decide⟩
  case effect =>
    have hwords : quadOf a b c d (quarterRound a b c d s.W) = quarterWords (quadOf a b c d s.W) :=
      quadOf_quarterRound h s.W
    exact ⟨quarterRound a b c d s.W, exec_qr_of_distinct h s, Quad.mk.inj hwords,
      fun k ha hb hc hd => regRead_quarterRound_other h ha hb hc hd s.W, Laws.OpcodeByte.encode_qr_toNat a b c d⟩

end Sys2Proof.Machine

/-!
The laws of the word primitives `add32` (41_quarter_round.md R110) and `xor32` (R111).
-/
namespace Sys2Proof.Machine

theorem add32_toNat (x y : Word) : (add32 x y).toNat = (x.toNat + y.toNat) % 2 ^ 32 := BitVec.toNat_add x y

theorem add32_comm (x y : Word) : add32 x y = add32 y x := BitVec.add_comm x y

theorem add32_assoc (x y z : Word) : add32 (add32 x y) z = add32 x (add32 y z) := BitVec.add_assoc x y z

@[simp] theorem add32_zero (x : Word) : add32 x 0 = x := BitVec.add_zero x

/-- The word `2^32 - x` is the additive inverse of `x`, for `x = 0` too, where it wraps to 0. -/
theorem add32_complement (x : Word) : add32 x (BitVec.ofNat 32 (2 ^ 32 - x.toNat)) = 0 := by
  have hlt : x.toNat < 2 ^ 32 := x.isLt
  apply BitVec.eq_of_toNat_eq
  rw [add32_toNat, BitVec.toNat_ofNat, Nat.add_mod_mod, Nat.add_sub_cancel' hlt.le, Nat.mod_self]
  rfl

/-- A bit of the exclusive-or is set where the two words' bits differ. -/
theorem getLsbD_xor32 (x y : Word) (k : Nat) : (xor32 x y).getLsbD k = true ↔ x.getLsbD k ≠ y.getLsbD k := by
  rw [xor32, BitVec.getLsbD_xor, bne_iff_ne]

theorem xor32_comm (x y : Word) : xor32 x y = xor32 y x := BitVec.xor_comm x y

theorem xor32_assoc (x y z : Word) : xor32 (xor32 x y) z = xor32 x (xor32 y z) := BitVec.xor_assoc x y z

@[simp] theorem xor32_zero (x : Word) : xor32 x 0 = x := BitVec.xor_zero

@[simp] theorem xor32_self (x : Word) : xor32 x x = 0 := BitVec.xor_self

/-- Settles O5: the laws of `add32` and of `xor32`, and the examples by evaluation. -/
theorem addAndXorOfWords : Obligations.AddAndXorOfWords := by
  refine ⟨fun x y z => ?sum, fun x y z => ?exclusiveOr, by decide⟩
  case sum => exact ⟨add32_toNat x y, add32_comm x y, add32_assoc x y z, add32_zero x, fun _ => add32_complement x⟩
  case exclusiveOr =>
    exact ⟨fun k _ => getLsbD_xor32 x y k, xor32_comm x y, xor32_assoc x y z, xor32_zero x, xor32_self x⟩

end Sys2Proof.Machine

/-!
The block operations one at a time (42_block_compressor.md R130, R136, R138, R140): what each completes with, and the memory
SER leaves.
-/
namespace Sys2Proof.Machine

/-- SER completes when `OUT` lies in the address space (42_block_compressor.md R138). -/
theorem exec_ser_eq {s : State} (h : s.params.outAddr.toNat + 64 ≤ 2 ^ 32) :
    exec .ser s = .next (s.setMem (memWriteList s.mem s.params.outAddr.toNat (serFile s.params.byteOrder s.W))) :=
  execSer_next.mpr ⟨h, rfl⟩

/-- ADDS completes (42_block_compressor.md R136). -/
theorem exec_adds_eq (s : State) : exec .adds s = .next (s.setW (addFiles s.W s.S)) := rfl

/-- CTRINC completes (42_block_compressor.md R140). -/
theorem exec_ctrinc_eq (s : State) : exec .ctrinc s = .next (s.setS (counterNext s.S)) := rfl

@[simp] theorem regRead_counterNext_counter (v : RegFile) : regRead (counterNext v) 12 = add32 (regRead v 12) 1 := by
  rw [counterNext, regRead_regWrite_same]

/-- The bytes of a serialised file in a memory it was written to: byte `4k + j` is byte `j` of word `k`. -/
theorem memRead_serFile_word {m : Memory} (hm : Memory.wf m = true) {a : Nat} (ha : a + 64 ≤ 2 ^ 32) (o : ByteOrder)
    (v : RegFile) (k : RegIdx) {j : Nat} (hj : j < 4) :
    some (memRead (memWriteList m a (serFile o v)) (a + 4 * k.val + j)) = (ser32 o (regRead v k))[j]? := by
  have hfits : a + (serFile o v).length ≤ Config.addressSpace := by rw [length_serFile]; exact ha
  have hin : 4 * k.val + j < (serFile o v).length := by rw [length_serFile]; omega
  rw [Nat.add_assoc, memRead_memWriteList_inside hm hfits hin, getElem?_serFile o v k hj]

/-- A byte outside the 64 that a serialised file was written to reads as before. -/
theorem memRead_serFile_outside {m : Memory} (hm : Memory.wf m = true) {a : Nat} (ha : a + 64 ≤ 2 ^ 32) (o : ByteOrder)
    (v : RegFile) {x : Nat} (hx : ¬ (a ≤ x ∧ x < a + 64)) :
    memRead (memWriteList m a (serFile o v)) x = memRead m x := by
  rw [← length_serFile o v] at ha hx
  exact memRead_memWriteList_outside hm ha hx

/-- Writing a serialised file inside the address space keeps the canonical form. -/
theorem Memory.wf_serFile {m : Memory} (hm : Memory.wf m = true) {a : Nat} (ha : a + 64 ≤ 2 ^ 32) (o : ByteOrder)
    (v : RegFile) : Memory.wf (memWriteList m a (serFile o v)) = true := by
  rw [← length_serFile o v] at ha
  exact Memory.wf_memWriteList hm ha

/-- In the order `little` byte `j` of a word is its bits `8j + 7` to `8j` (20_memory.md R47). -/
theorem getElem?_ser32_little (v : Word) {j : Nat} (hj : j < 4) :
    (ser32 .little v)[j]? = some (v.extractLsb' (8 * j) 8) := by
  interval_cases j <;> rfl

/-- Settles O18: COPY's file is `S` itself (`exec_copy_eq`). -/
theorem copyResult : Obligations.CopyResult := ⟨exec_copy_eq, rfl, rfl⟩

/-- Settles O20: SER writes the serialised `W` at `OUT`, and memory reads each byte of it at its place. -/
theorem serResult : Obligations.SerResult := by
  refine ⟨fun s hwf hout => ?effect, rfl, rfl⟩
  case effect =>
    refine ⟨_, exec_ser_eq hout, Memory.wf_serFile hwf hout _ _, fun k j hj => ?bytes,
      fun x hx => memRead_serFile_outside hwf hout _ _ hx⟩
    case bytes =>
      have hbyte := memRead_serFile_word hwf hout s.params.byteOrder s.W k hj
      refine ⟨hbyte, fun hlittle => ?_⟩
      exact Option.some.inj (hbyte.trans (by rw [hlittle, getElem?_ser32_little _ hj]))

/-- Settles O21: CTRINC's cipher state is `counterNext`, read at word 12 and at every other word. -/
theorem ctrincResult : Obligations.CtrincResult := by
  refine ⟨fun s => ⟨counterNext s.S, exec_ctrinc_eq s, ?sum, fun hmax => ?wrap,
    fun k hk => regRead_counterNext_other s.S hk⟩, rfl, rfl⟩
  case sum =>
    rw [regRead_counterNext_counter]
    exact add32_toNat (regRead s.S 12) 1
  case wrap =>
    rw [regRead_counterNext_counter, hmax]
    decide

end Sys2Proof.Machine

/-!
The rounds as lists of operations (42_block_compressor.md R131 to R134): each completes from any state and changes only `W`.
-/
namespace Sys2Proof.Machine

/-- A quarter round on distinct registers, then the rest of the list. -/
theorem execList_qr_cons {a b c d : RegIdx} (h : DistinctIndices a b c d) (l : List Instr) (s : State) :
    execList (.qr a b c d :: l) s = execList l (s.setW (quarterRound a b c d s.W)) :=
  execList_cons (exec_qr_of_distinct h s)

theorem execList_colRoundOps (s : State) : execList colRoundOps s = .next (s.setW (colRound s.W)) := by
  rw [colRoundOps, execList_qr_cons (by decide), execList_qr_cons (by decide), execList_qr_cons (by decide),
    execList_qr_cons (by decide), execList]
  simp only [State.setW_W, State.setW_setW, colRound]

theorem execList_diagRoundOps (s : State) : execList diagRoundOps s = .next (s.setW (diagRound s.W)) := by
  rw [diagRoundOps, execList_qr_cons (by decide), execList_qr_cons (by decide), execList_qr_cons (by decide),
    execList_qr_cons (by decide), execList]
  simp only [State.setW_W, State.setW_setW, diagRound]

theorem execList_dRoundOps (s : State) : execList dRoundOps s = .next (s.setW (doubleRound s.W)) := by
  rw [dRoundOps, execList_append (execList_colRoundOps s), execList_diagRoundOps, State.setW_W, State.setW_setW,
    doubleRound]

theorem execList_repeat_dRoundOps (n : Nat) (s : State) :
    execList (repeatOps n dRoundOps) s = .next (s.setW (doubleRounds n s.W)) := by
  induction n generalizing s with
  | zero => rfl
  | succ n ih =>
    rw [repeatOps, execList_append (execList_dRoundOps s), ih, State.setW_W, State.setW_setW, doubleRounds]

theorem execList_rounds20Ops (s : State) : execList rounds20Ops s = .next (s.setW (rounds20 s.W)) :=
  execList_repeat_dRoundOps 10 s

/-- The 80 quarter rounds of a block, slot by slot, are ten double rounds (42_block_compressor.md R134). -/
theorem firstRounds_eighty (v : RegFile) : firstRounds 80 v = rounds20 v := firstRounds_mul_eight 10 v

/-- Settles O22: the lists by evaluation, each round's execution quarter round by quarter round, the ten double rounds by
induction on their number. -/
theorem roundsRunInOrder : Obligations.RoundsRunInOrder := by
  refine ⟨rfl, rfl, rfl, rfl, fun s => ?execution, firstRounds_eighty⟩
  case execution =>
    refine ⟨execList_colRoundOps s, execList_diagRoundOps s, execList_dRoundOps s, ?_⟩
    rw [firstRounds_eighty]
    exact execList_rounds20Ops s

end Sys2Proof.Machine

/-!
BLOCK as a function of the state (42_block_compressor.md R142), and BLOCK repeated (R143).
-/
namespace Sys2Proof.Machine

/-- The state after one BLOCK: the output words in `W`, their bytes in `OUT`, the counter one more (R142). -/
def afterBlock (s : State) : State :=
  ((s.setW (blockWords s.S)).setMem
    (memWriteList s.mem s.params.outAddr.toNat (blockBytes s.params.byteOrder s.S))).setS (counterNext s.S)

@[simp] theorem afterBlock_W (s : State) : (afterBlock s).W = blockWords s.S := rfl
@[simp] theorem afterBlock_S (s : State) : (afterBlock s).S = counterNext s.S := rfl
@[simp] theorem afterBlock_mem (s : State) : (afterBlock s).mem =
    memWriteList s.mem s.params.outAddr.toNat (blockBytes s.params.byteOrder s.S) := rfl
@[simp] theorem afterBlock_params (s : State) : (afterBlock s).params = s.params := rfl

/-- BLOCK completes with `afterBlock` when `OUT` lies in the address space: COPY, the rounds, ADDS, SER, CTRINC in turn. -/
theorem execList_blockOps {s : State} (hout : s.params.outAddr.toNat + 64 ≤ 2 ^ 32) :
    execList blockOps s = .next (afterBlock s) := by
  rw [blockOps, execList_cons (exec_copy_eq s), execList_append (execList_rounds20Ops _), execList_cons (exec_adds_eq _)]
  simp only [State.setW_W, State.setW_S, State.setW_setW]
  rw [← blockWords, execList_cons (exec_ser_eq (s := s.setW (blockWords s.S)) hout), execList_cons (exec_ctrinc_eq _)]
  rfl

/-- `n` BLOCKs complete with `afterBlock` iterated. -/
theorem execList_repeat_blockOps (n : Nat) {s : State} (hout : s.params.outAddr.toNat + 64 ≤ 2 ^ 32) :
    execList (repeatOps n blockOps) s = .next (afterBlock^[n] s) := by
  induction n generalizing s with
  | zero => rfl
  | succ n ih =>
    rw [repeatOps, execList_append (execList_blockOps hout), ih (s := afterBlock s) hout, Function.iterate_succ_apply]

@[simp] theorem afterBlock_iterate_params (n : Nat) (s : State) : (afterBlock^[n] s).params = s.params := by
  induction n with
  | zero => rfl
  | succ n ih => rw [Function.iterate_succ_apply', afterBlock_params, ih]

/-- One more than the counter `n` blocks after `c`, modulo 2^32. -/
theorem add32_ofNat_one (n : Nat) : add32 (BitVec.ofNat 32 n) 1 = BitVec.ofNat 32 (n + 1) := (BitVec.ofNat_add n 1).symm

/-- A file with its counter word replaced by the word it already holds. -/
theorem withCounter_self (v : RegFile) : withCounter v (regRead v 12) = v :=
  regFile_ext fun k => by
    rw [regRead_withCounter]
    split
    · next hk => rw [hk]
    · rfl

/-- After `n` BLOCKs the counter is `n` more modulo 2^32, and every other word of `S` is as it was. -/
theorem afterBlock_iterate_S (n : Nat) (s : State) :
    (afterBlock^[n] s).S = withCounter s.S (BitVec.ofNat 32 ((regRead s.S 12).toNat + n)) := by
  induction n with
  | zero => rw [Nat.add_zero, BitVec.ofNat_toNat, BitVec.setWidth_eq, withCounter_self]; rfl
  | succ n ih =>
    rw [Function.iterate_succ_apply', afterBlock_S, ih, counterNext_withCounter, add32_ofNat_one, Nat.add_assoc]

/-- BLOCKs keep the canonical form of memory. -/
theorem afterBlock_iterate_wf (n : Nat) {s : State} (hwf : Memory.wf s.mem = true)
    (hout : s.params.outAddr.toNat + 64 ≤ 2 ^ 32) : Memory.wf (afterBlock^[n] s).mem = true := by
  induction n with
  | zero => exact hwf
  | succ n ih =>
    rw [Function.iterate_succ_apply', afterBlock_mem, afterBlock_iterate_params]
    exact Memory.wf_serFile ih hout _ _

/-- BLOCKs leave every byte outside `OUT`. -/
theorem afterBlock_iterate_frame (n : Nat) {s : State} (hwf : Memory.wf s.mem = true)
    (hout : s.params.outAddr.toNat + 64 ≤ 2 ^ 32) {x : Nat}
    (hx : ¬ (s.params.outAddr.toNat ≤ x ∧ x < s.params.outAddr.toNat + 64)) :
    memRead (afterBlock^[n] s).mem x = memRead s.mem x := by
  induction n with
  | zero => rfl
  | succ n ih =>
    rw [Function.iterate_succ_apply', afterBlock_mem, afterBlock_iterate_params]
    exact (memRead_serFile_outside (afterBlock_iterate_wf n hwf hout) hout _ _ hx).trans ih

/-- After a BLOCK the 64 bytes of `OUT` are the block of the cipher state it started from. -/
theorem memRead_afterBlock_out {s : State} (hwf : Memory.wf s.mem = true)
    (hout : s.params.outAddr.toNat + 64 ≤ 2 ^ 32) {k : Nat} (hk : k < 64) :
    some (memRead (afterBlock s).mem (s.params.outAddr.toNat + k)) = (blockBytes s.params.byteOrder s.S)[k]? := by
  have hlen : (blockBytes s.params.byteOrder s.S).length = 64 := length_serFile _ _
  rw [← hlen] at hout hk
  exact memRead_memWriteList_inside hwf hout hk

/-- Settles O26: `n` BLOCKs are `afterBlock` iterated; the last one writes the block of the cipher state that the `n - 1`
before it left. -/
theorem repeatedBlocks : Obligations.RepeatedBlocks := by
  intro n s hwf hout
  refine ⟨afterBlock^[n] s, execList_repeat_blockOps n hout, afterBlock_iterate_S n s, fun hn k hk => ?out,
    fun x hx => afterBlock_iterate_frame n hwf hout hx⟩
  case out =>
    obtain ⟨m, rfl⟩ := Nat.exists_eq_add_of_le' hn
    have hparams := afterBlock_iterate_params m s
    have hlast := memRead_afterBlock_out (afterBlock_iterate_wf m hwf hout) (by rw [hparams]; exact hout) hk
    rw [afterBlock_iterate_S, hparams] at hlast
    rw [Function.iterate_succ_apply']
    exact hlast

end Sys2Proof.Machine

/-!
The steps of the block at T5 (43_keystream_driver.md R154): the operations of the micro-program complete without a request,
and how the position moves past each.
-/
namespace Sys2Proof.Machine

/-- The operations that issue a request to the host (30_encoding.md R80, R81). -/
def requestOps : List Instr := [.sigKey, .sigNonce, .sigCount, .sigOut, .halt]

/-- Every operation the encoding admits completes on an admissible platform: QR's indices are distinct, and the buffers of
INIT and SER lie in the address space. -/
theorem exec_completes {i : Instr} {s : State} (hwf : i.wellFormed = true) (hadm : admissible s.params = true) :
    ∃ u, exec i s = .next u := by
  obtain ⟨⟨hkey, hnonce, hout⟩, -, -⟩ := admissible_iff.mp hadm
  cases i with
  | sigKey | sigNonce | sigCount | sigOut | halt | copy | adds | ctrinc => exact ⟨_, rfl⟩
  | init => exact ⟨_, execInit_next.mpr ⟨⟨hkey, hnonce⟩, rfl⟩⟩
  | qr a b c d => exact ⟨_, exec_qr_of_distinct (of_decide_eq_true hwf) s⟩
  | ser => exact ⟨_, exec_ser_eq hout⟩

/-- An operation that issues no request leaves the channel and `top`. -/
theorem exec_chan_top {i : Instr} {s u : State} (hi : i ∉ requestOps) (h : exec i s = .next u) :
    u.chan = s.chan ∧ u.top = s.top := by
  rcases exec_next_cases h with ⟨_, _, hsig, -⟩ | ⟨rfl, -⟩ | ⟨-, rfl⟩ | ⟨-, rfl⟩ | ⟨_, _, _, _, -, -, rfl⟩ | ⟨-, rfl⟩ |
    ⟨-, -, rfl⟩ | ⟨-, rfl⟩
  · exact absurd (List.mem_append_left [Instr.halt] hsig) hi
  · exact absurd (by decide) hi
  all_goals exact ⟨rfl, rfl⟩

/-- The micro-program holds only operations that the encoding admits (30_encoding.md R78, R79). -/
theorem microInstr_wellFormed (t : Fin 84) : (microInstr t).wellFormed = true := by
  revert t; decide +kernel

/-- The micro-program holds no operation that issues a request (30_encoding.md R78, R79). -/
theorem microInstr_notMem_requestOps (t : Fin 84) : microInstr t ∉ requestOps := by
  revert t; decide +kernel

/-- A step whose scheduled operation completes with the channel idle moves the position at once. -/
theorem step_of_exec_idle {s u : State} {w : Word} {i : Instr} (hadm : admissible s.params = true) (hs : OnSchedule s)
    (hc : s.chan = .idle) (hw : scheduleWord s.top s.t = some w) (hd : decode w = .ok i) (hx : exec i s = .next u)
    (hu : u.chan = .idle) : step s = .next (advance u) := by
  have hf : fetchWord s = some w := by rw [fetchWord, hs]; exact hw
  have hissue : u.setIssue none = u := by
    obtain ⟨-, -, -, -, -, hissue⟩ := exec_frame hx
    rw [State.setIssue, ← hs, ← hissue]
  rw [step_of_decode hadm hc hf hd, hx, mapNext_next, complete, hu, hissue]

theorem advance_of_T5 {s : State} (h : s.top = .T5) : advance s = advanceBlock s := by rw [advance, h]

theorem advanceBlock_of_lt {s : State} (h : s.t.val < 83) : advanceBlock s = s.setT ⟨s.t.val + 1, by omega⟩ := dif_pos h

theorem advanceBlock_of_last {s : State} (h : s.t.val = 83) : advanceBlock s = enterLoop (s.setI (add32 s.i 1)) :=
  dif_neg (by omega)

theorem enterLoop_of_lt {s : State} (h : s.i.toNat < s.N.toNat) : enterLoop s = (s.setTop .T5).setT 0 :=
  if_pos (loopTest_iff.mpr h)

theorem enterLoop_of_not_lt {s : State} (h : ¬ s.i.toNat < s.N.toNat) : enterLoop s = (s.setTop .T6).setT 0 :=
  if_neg (mt loopTest_iff.mp h)

/-- Settles O36: the operation of the micro-program completes with the channel idle and `N`, `i`, `top` and `t` as they were,
so the step is `advanceBlock` past it. -/
theorem blockPositionsAdvance : Obligations.BlockPositionsAdvance := by
  intro s hadm hs htop hc
  obtain ⟨u, hx⟩ := exec_completes (microInstr_wellFormed s.t) hadm
  obtain ⟨hchan, hutop⟩ := exec_chan_top (microInstr_notMem_requestOps s.t) hx
  obtain ⟨hN, hi, ht, -, -, -⟩ := exec_frame hx
  rw [hc] at hchan
  rw [htop] at hutop
  have hw : scheduleWord s.top s.t = some (microWord s.t) := by rw [htop]; rfl
  have hstep : step s = .next (advanceBlock u) := by
    rw [← advance_of_T5 hutop]
    exact step_of_exec_idle hadm hs hc hw (decode_microWord s.t) hx hchan
  refine ⟨microInstr s.t, u, decode_microWord s.t, hx, hchan, ?_⟩
  rw [hstep]
  simp only [← ht, ← hi, ← hN]
  refine ⟨fun hlt => ?inside, fun hlast hmore => ?nextBlock, fun hlast hdone => ?pastLoop⟩
  case inside => rw [advanceBlock_of_lt hlt, State.setT]
  case nextBlock => rw [advanceBlock_of_last hlast, enterLoop_of_lt hmore, ← hutop]; rfl
  case pastLoop => rw [advanceBlock_of_last hlast, enterLoop_of_not_lt hdone]; rfl

end Sys2Proof.Machine

/-!
The operation word in its fields (30_encoding.md R71 to R76): a word is decided by its operation code, its register fields
and its signal type, and the decoder accepts exactly the words of the well-formed operations.
-/
namespace Sys2Proof

open Laws.OpcodeByte (encode_qr_toNat opc_toNat imm8_toNat)

/-- The four register fields together as a number (R71). -/
theorem registerFields_toNat (w : Word) : (w.extractLsb' 8 16).toNat = w.toNat / 2 ^ 8 % 2 ^ 16 := by
  rw [BitVec.extractLsb'_toNat, Nat.shiftRight_eq_div_pow]

/-- All the fields below the operation code together as a number (R71). -/
theorem belowOpc_toNat (w : Word) : (w.extractLsb' 0 24).toNat = w.toNat % 2 ^ 24 := by
  rw [BitVec.extractLsb'_toNat, Nat.shiftRight_zero]

/-- A register field as a number (R71, R74). -/
theorem regField_val (lo : Nat) (w : Word) : (regField lo w).val = w.toNat / 2 ^ lo % 2 ^ 4 := by
  have h : (regField lo w).val = (w.extractLsb' lo 4).toNat := rfl
  rw [h, BitVec.extractLsb'_toNat, Nat.shiftRight_eq_div_pow]

/-- Two words with the same operation code, the same register fields and the same signal type are equal (R71). -/
theorem word_ext {w v : Word} (hopc : opc w = opc v) (hregs : w.extractLsb' 8 16 = v.extractLsb' 8 16)
    (himm : imm8 w = imm8 v) : w = v := by
  apply BitVec.eq_of_toNat_eq
  have ho := congrArg BitVec.toNat hopc
  have hr := congrArg BitVec.toNat hregs
  have hi := congrArg BitVec.toNat himm
  rw [opc_toNat, opc_toNat] at ho
  rw [registerFields_toNat, registerFields_toNat] at hr
  rw [imm8_toNat, imm8_toNat] at hi
  have hw := w.isLt
  have hv := v.isLt
  omega

/-- Two words with the same operation code and the same fields below it are equal (R71). -/
theorem word_ext_belowOpc {w v : Word} (hopc : opc w = opc v) (hlow : w.extractLsb' 0 24 = v.extractLsb' 0 24) : w = v := by
  apply BitVec.eq_of_toNat_eq
  have ho := congrArg BitVec.toNat hopc
  have hl := congrArg BitVec.toNat hlow
  rw [opc_toNat, opc_toNat] at ho
  rw [belowOpc_toNat, belowOpc_toNat] at hl
  have hw := w.isLt
  have hv := v.isLt
  omega

theorem opc_encode_qr (a b c d : RegIdx) : opc (encode (.qr a b c d)) = 0x21 := by
  obtain ⟨-, hopc, -⟩ := Laws.OpcodeByte.qr a b c d
  exact hopc.trans (show opc 0x21000000 = 0x21 by decide)

theorem imm8_encode_qr (a b c d : RegIdx) : imm8 (encode (.qr a b c d)) = 0 := by
  obtain ⟨-, -, himm⟩ := Laws.OpcodeByte.qr a b c d
  exact himm.trans (show imm8 0x21000000 = 0 by decide)

/-- The register fields of QR's word are its four indices (R74). -/
theorem fields_encode_qr (a b c d : RegIdx) :
    fieldA (encode (.qr a b c d)) = a ∧ fieldB (encode (.qr a b c d)) = b ∧
    fieldC (encode (.qr a b c d)) = c ∧ fieldD (encode (.qr a b c d)) = d := by
  have ha := a.isLt
  have hb := b.isLt
  have hc := c.isLt
  have hd := d.isLt
  refine ⟨?_, ?_, ?_, ?_⟩ <;> apply Fin.ext <;>
    simp only [fieldA, fieldB, fieldC, fieldD, regField_val, encode_qr_toNat] <;> omega

/-- A word with QR's operation code and a zero signal type is the word of the QR on its register fields (R72, R74). -/
theorem encode_qr_fields {w : Word} (hopc : opc w = 0x21) (himm : imm8 w = 0) :
    encode (.qr (fieldA w) (fieldB w) (fieldC w) (fieldD w)) = w := by
  refine word_ext ((opc_encode_qr _ _ _ _).trans hopc.symm) ?registers ((imm8_encode_qr _ _ _ _).trans himm.symm)
  case registers =>
    apply BitVec.eq_of_toNat_eq
    rw [registerFields_toNat, registerFields_toNat, encode_qr_toNat]
    simp only [fieldA, fieldB, fieldC, fieldD, regField_val]
    omega

/-- A word with QR's operation code is read by QR's decoder. -/
theorem decode_of_opc_qr {w : Word} (h : opc w = 0x21) : decode w = decodeQr w := by
  simp [decode, h]

/-- Settles O2: QR's word is read field by field; every other operation has one fixed word. -/
theorem decodeEncodeRoundTrip : Obligations.DecodeEncodeRoundTrip := by
  intro i hwf
  cases i with
  | sigKey | sigNonce | sigCount | sigOut | halt | init | copy | adds | ser | ctrinc => decide
  | qr a b c d =>
    have hdistinct : DistinctIndices a b c d := of_decide_eq_true hwf
    obtain ⟨ha, hb, hc, hd⟩ := fields_encode_qr a b c d
    have himm := imm8_encode_qr a b c d
    rw [decode_of_opc_qr (opc_encode_qr a b c d), decodeQr, ha, hb, hc, hd, if_neg (not_not.mpr himm), if_pos hdistinct]

/-- What the decoder of an operation without fields accepts. -/
theorem decodePlain_eq_ok {i j : Instr} {w : Word} (h : decodePlain i w = .ok j) : j = i ∧ w.extractLsb' 0 24 = 0 := by
  unfold decodePlain at h
  split at h
  · next hlow => exact ⟨(Except.ok.inj h).symm, hlow⟩
  · cases h

/-- What the decoder of the SIG words accepts: no register field, and the signal type of the operation (R73). -/
theorem decodeSignal_eq_ok {i : Instr} {w : Word} (h : decodeSignal w = .ok i) :
    w.extractLsb' 8 16 = 0 ∧ imm8 w = imm8 (encode i) ∧ i ∈ [Instr.sigKey, .sigNonce, .sigCount, .sigOut] := by
  unfold decodeSignal at h
  split at h
  · cases h
  next hregs =>
  refine ⟨not_not.mp hregs, ?_⟩
  split at h
  · next himm => cases h; exact ⟨himm, by decide⟩
  split at h
  · next himm => cases h; exact ⟨himm, by decide⟩
  split at h
  · next himm => cases h; exact ⟨himm, by decide⟩
  split at h
  · next himm => cases h; exact ⟨himm, by decide⟩
  · cases h

/-- What the decoder of the QR words accepts: a zero signal type and pairwise distinct register fields (R74, R76). -/
theorem decodeQr_eq_ok {i : Instr} {w : Word} (h : decodeQr w = .ok i) :
    imm8 w = 0 ∧ DistinctIndices (fieldA w) (fieldB w) (fieldC w) (fieldD w) ∧
      i = .qr (fieldA w) (fieldB w) (fieldC w) (fieldD w) := by
  unfold decodeQr at h
  split at h
  · cases h
  next himm =>
  split at h
  · next hdistinct => exact ⟨not_not.mp himm, hdistinct, (Except.ok.inj h).symm⟩
  · cases h

/-- A word that the decoder of an operation without fields accepts is that operation's word. -/
theorem encode_of_decodePlain {i j : Instr} {w : Word} {code : BitVec 8} (hopc : opc w = code)
    (h : decodePlain i w = .ok j)
    (hfixed : i.wellFormed = true ∧ opc (encode i) = code ∧ (encode i).extractLsb' 0 24 = 0) :
    j.wellFormed = true ∧ encode j = w := by
  obtain ⟨rfl, hw⟩ := decodePlain_eq_ok h
  obtain ⟨hwf, hcode, hlow⟩ := hfixed
  exact ⟨hwf, word_ext_belowOpc (hcode.trans hopc.symm) (hlow.trans hw.symm)⟩

/-- A word that the decoder of the SIG words accepts is the word of the operation it gives. -/
theorem encode_of_decodeSignal {i : Instr} {w : Word} (hopc : opc w = 0x01) (h : decodeSignal w = .ok i) :
    i.wellFormed = true ∧ encode i = w := by
  obtain ⟨hregs, himm, hi⟩ := decodeSignal_eq_ok h
  have hfixed : ∀ j ∈ [Instr.sigKey, .sigNonce, .sigCount, .sigOut],
      j.wellFormed = true ∧ opc (encode j) = 0x01 ∧ (encode j).extractLsb' 8 16 = 0 := by decide
  obtain ⟨hwf, hopcI, hregsI⟩ := hfixed i hi
  exact ⟨hwf, word_ext (hopcI.trans hopc.symm) (hregsI.trans hregs.symm) himm.symm⟩

/-- A word that the decoder of the QR words accepts is the word of the operation it gives. -/
theorem encode_of_decodeQr {i : Instr} {w : Word} (hopc : opc w = 0x21) (h : decodeQr w = .ok i) :
    i.wellFormed = true ∧ encode i = w := by
  obtain ⟨himm, hdistinct, rfl⟩ := decodeQr_eq_ok h
  exact ⟨decide_eq_true hdistinct, encode_qr_fields hopc himm⟩

/-- Settles O3: along the operation codes of the decoder, each with what its own decoder accepts. -/
theorem acceptedWordIsItsEncoding : Obligations.AcceptedWordIsItsEncoding := by
  intro w i h
  unfold decode at h
  split at h
  · next hopc => exact encode_of_decodeSignal hopc h
  split at h
  · next hopc => exact encode_of_decodePlain hopc h (by decide)
  split at h
  · next hopc => exact encode_of_decodePlain hopc h (by decide)
  split at h
  · next hopc => exact encode_of_decodePlain hopc h (by decide)
  split at h
  · next hopc => exact encode_of_decodeQr hopc h
  split at h
  · next hopc => exact encode_of_decodePlain hopc h (by decide)
  split at h
  · next hopc => exact encode_of_decodePlain hopc h (by decide)
  split at h
  · next hopc => exact encode_of_decodePlain hopc h (by decide)
  · cases h

/-- The decoder accepts exactly the words of the well-formed operations (R72, R76). -/
theorem decode_eq_ok_iff {w : Word} {i : Instr} : decode w = .ok i ↔ i.wellFormed = true ∧ encode i = w :=
  ⟨acceptedWordIsItsEncoding w i, fun ⟨hwf, hw⟩ => hw ▸ decodeEncodeRoundTrip i hwf⟩

/-- A word is reserved exactly when it is the word of no well-formed operation (R76). -/
theorem decode_error_iff {w : Word} : (∃ e, decode w = .error e) ↔ ∀ i : Instr, i.wellFormed = true → encode i ≠ w := by
  constructor
  · rintro ⟨e, he⟩ i hwf hw
    rw [← hw, decodeEncodeRoundTrip i hwf] at he
    cases he
  · intro h
    cases hd : decode w with
    | error e => exact ⟨e, rfl⟩
    | ok i =>
      obtain ⟨hwf, hw⟩ := decode_eq_ok_iff.mp hd
      exact absurd hw (h i hwf)

/-- QR's row of the operation map fixes the operation code and the signal type and leaves the register fields (R72). -/
theorem matches_qrRow_iff {w : Word} : w &&& 0xFF0000FF = 0x21000000 ↔ opc w = 0x21 ∧ imm8 w = 0 := by
  have hopc : opc (w &&& 0xFF0000FF) = opc w := by
    rw [opc, BitVec.extractLsb'_and]; exact BitVec.and_allOnes
  have himm : imm8 (w &&& 0xFF0000FF) = imm8 w := by
    rw [imm8, BitVec.extractLsb'_and]; exact BitVec.and_allOnes
  have hregs : (w &&& 0xFF0000FF).extractLsb' 8 16 = 0 := by
    rw [BitVec.extractLsb'_and]; exact BitVec.and_zero
  constructor
  · intro h
    rw [h] at hopc himm
    exact ⟨hopc.symm, himm.symm⟩
  · rintro ⟨ho, hi⟩
    exact word_ext (hopc.trans ho) (hregs.trans (by decide)) (himm.trans hi)

/-- The row of an operation with one fixed word is matched by that word only (R72). -/
theorem eq_of_matches_fixedRow {w v : Word} {r : OpRow} (hr : r.mtch = v ∧ r.mask = 0xFFFFFFFF)
    (hw : w &&& r.mask = r.mtch) : w = v := by
  obtain ⟨hmtch, hmask⟩ := hr
  rw [hmtch, hmask] at hw
  exact BitVec.and_allOnes.symm.trans hw

/-- The word of every operation matches the operation's row (R72). -/
theorem encode_matches_rowOf (i : Instr) : encode i &&& (rowOf i).mask = (rowOf i).mtch := by
  cases i with
  | sigKey | sigNonce | sigCount | sigOut | halt | init | copy | adds | ser | ctrinc => decide
  | qr a b c d => exact matches_qrRow_iff.mpr ⟨opc_encode_qr a b c d, imm8_encode_qr a b c d⟩

theorem rowOf_mem_opcodeTable (i : Instr) : rowOf i ∈ opcodeTable := by
  cases i <;> simp [opcodeTable, rowOf]

/-- A row of the operation map is QR's, or it is matched by one word only, that of an operation which is not QR (R72). -/
theorem opcodeTable_cases {r : OpRow} (hr : r ∈ opcodeTable) :
    r = rowOf (.qr 0 0 0 0) ∨
      ∃ i : Instr, i.wellFormed = true ∧ opc (encode i) ≠ 0x21 ∧ r.mtch = encode i ∧ r.mask = 0xFFFFFFFF := by
  have hrows : ∀ q ∈ opcodeTable, q = rowOf (.qr 0 0 0 0) ∨
      ∃ i ∈ [Instr.sigKey, .sigNonce, .sigCount, .sigOut, .halt, .init, .copy, .adds, .ser, .ctrinc],
        i.wellFormed = true ∧ opc (encode i) ≠ 0x21 ∧ q.mtch = encode i ∧ q.mask = 0xFFFFFFFF := by decide
  exact (hrows r hr).imp_right fun ⟨i, _, hi⟩ => ⟨i, hi⟩

/-- A word that matches a row is the word of an operation, or it matches QR's row with some fields equal (R72, R76). -/
theorem matches_row_cases {w : Word} {r : OpRow} (hr : r ∈ opcodeTable) (hw : w &&& r.mask = r.mtch) :
    (∃ i : Instr, i.wellFormed = true ∧ encode i = w) ∨
      (w &&& 0xFF0000FF = 0x21000000 ∧ ¬ DistinctIndices (fieldA w) (fieldB w) (fieldC w) (fieldD w)) := by
  obtain rfl | ⟨i, hwf, -, hi⟩ := opcodeTable_cases hr
  · obtain ⟨hopc, himm⟩ := matches_qrRow_iff.mp hw
    by_cases hd : DistinctIndices (fieldA w) (fieldB w) (fieldC w) (fieldD w)
    · exact .inl ⟨.qr _ _ _ _, decide_eq_true hd, encode_qr_fields hopc himm⟩
    · exact .inr ⟨hw, hd⟩
  · exact .inl ⟨i, hwf, (eq_of_matches_fixedRow hi hw).symm⟩

/-- The word of a well-formed operation matches QR's row only as a QR with distinct indices (R76). -/
theorem distinct_of_encode_matches_qrRow {i : Instr} (hwf : i.wellFormed = true)
    (hrow : encode i &&& 0xFF0000FF = 0x21000000) :
    DistinctIndices (fieldA (encode i)) (fieldB (encode i)) (fieldC (encode i)) (fieldD (encode i)) := by
  cases i with
  | sigKey | sigNonce | sigCount | sigOut | halt | init | copy | adds | ser | ctrinc => exact absurd hrow (by decide)
  | qr a b c d =>
    obtain ⟨ha, hb, hc, hd⟩ := fields_encode_qr a b c d
    rw [ha, hb, hc, hd]
    exact of_decide_eq_true hwf

/-- No word matches two rows: the operation code tells QR's row from the others, and each of those has one word (R72). -/
theorem opcodeTable_disjoint {w : Word} {r q : OpRow} (hr : r ∈ opcodeTable) (hq : q ∈ opcodeTable)
    (hwr : w &&& r.mask = r.mtch) (hwq : w &&& q.mask = q.mtch) : r = q := by
  obtain rfl | ⟨i, -, hi, hr⟩ := opcodeTable_cases hr <;> obtain rfl | ⟨j, -, hj, hq⟩ := opcodeTable_cases hq
  · rfl
  · obtain ⟨hopc, -⟩ := matches_qrRow_iff.mp hwr
    exact absurd (eq_of_matches_fixedRow hq hwq ▸ hopc) hj
  · obtain ⟨hopc, -⟩ := matches_qrRow_iff.mp hwq
    exact absurd (eq_of_matches_fixedRow hr hwr ▸ hopc) hi
  · have hword : encode i = encode j := (eq_of_matches_fixedRow hr hwr).symm.trans (eq_of_matches_fixedRow hq hwq)
    obtain ⟨hmtch, hmask⟩ := hr
    obtain ⟨hmtch', hmask'⟩ := hq
    have hsame : r.mtch = q.mtch ∧ r.mask = q.mask := ⟨by rw [hmtch, hmtch', hword], by rw [hmask, hmask']⟩
    cases r
    exact (OpRow.mk.injEq _ _ _ _).mpr hsame

/-- Settles O4: a word is reserved when it is no operation's word (`decode_error_iff`), and a row is matched by operations'
words and by QR words with equal fields. -/
theorem reservedExactlyWhenNoRow : Obligations.ReservedExactlyWhenNoRow := by
  refine ⟨fun w => ?reserved, fun w r hr q hq => opcodeTable_disjoint hr hq⟩
  case reserved =>
    rw [decode_error_iff]
    constructor
    · intro hnone
      refine or_iff_not_imp_left.mpr fun hrow => ?_
      push Not at hrow
      obtain ⟨r, hr, hw⟩ := hrow
      rcases matches_row_cases hr hw with ⟨i, hwf, hi⟩ | hqr
      · exact absurd hi (hnone i hwf)
      · exact hqr
    · rintro (hnone | ⟨hrow, hequal⟩) i hwf rfl
      · exact hnone _ (rowOf_mem_opcodeTable i) (encode_matches_rowOf i)
      · exact hequal (distinct_of_encode_matches_qrRow hwf hrow)

/-- Settles O1: by evaluation of the decoder on each of the words. -/
theorem specWordsDecode : Obligations.SpecWordsDecode := by
  refine ⟨?fixed, ?quarterRounds, ?reserved⟩
  case fixed => decide
  case quarterRounds => decide
  case reserved => decide

end Sys2Proof

/-!
The rotation `rotl32` (41_quarter_round.md R112) and the bytes of a word (20_memory.md R45, R47).
-/
namespace Sys2Proof.Machine

/-- Rotation moves bit `k` to bit `(k + r) mod 32`. -/
theorem getLsbD_rotl32 (x : Word) {r k : Nat} (hr : r < 32) (hk : k < 32) :
    (rotl32 x r).getLsbD ((k + r) % 32) = x.getLsbD k := by
  rw [rotl32, BitVec.getLsbD_rotateLeft, Nat.mod_eq_of_lt hr]
  by_cases hwrap : k + r < 32
  · rw [Nat.mod_eq_of_lt hwrap, decide_eq_false (by omega), decide_eq_true hwrap, Nat.add_sub_cancel]
    rfl
  · have hmod : (k + r) % 32 = k + r - 32 := by omega
    rw [hmod, decide_eq_true (by omega)]
    exact congrArg x.getLsbD (by omega)

/-- The value of a rotation: the bits that stay inside the word, and below them those that come round. -/
theorem rotl32_toNat (x : Word) {r : Nat} (hr : r < 32) :
    (rotl32 x r).toNat = (x.toNat * 2 ^ r) % 2 ^ 32 + x.toNat / 2 ^ (32 - r) := by
  have hx : x.toNat < 2 ^ 32 := x.isLt
  have hsplit : (2 : Nat) ^ 32 = 2 ^ (32 - r) * 2 ^ r := by rw [← Nat.pow_add, Nat.sub_add_cancel hr.le]
  have hhigh : (x.toNat * 2 ^ r) % 2 ^ 32 = (x.toNat % 2 ^ (32 - r)) <<< r := by
    rw [hsplit, Nat.mul_mod_mul_right, Nat.shiftLeft_eq]
  have hlow : x.toNat / 2 ^ (32 - r) < 2 ^ r := by
    rw [Nat.div_lt_iff_lt_mul (Nat.two_pow_pos _), Nat.mul_comm, ← hsplit]
    exact hx
  rw [rotl32, BitVec.toNat_rotateLeft, Nat.mod_eq_of_lt hr, Nat.shiftLeft_eq, Nat.shiftRight_eq_div_pow, hhigh,
    Nat.shiftLeft_add_eq_or_of_lt hlow]

/-- Rotating by `r` and on by `q` makes a full turn when `r + q` is 0 or 32. -/
theorem rotl32_rotl32_cancel (x : Word) {r q : Nat} (hr : r < 32) (hq : q < 32) (hturn : (r + q) % 32 = 0) :
    rotl32 (rotl32 x r) q = x := by
  refine BitVec.eq_of_getLsbD_eq fun k hk => ?_
  have hplace : ((k + r) % 32 + q) % 32 = k := by omega
  calc (rotl32 (rotl32 x r) q).getLsbD k
      = (rotl32 (rotl32 x r) q).getLsbD (((k + r) % 32 + q) % 32) := by rw [hplace]
    _ = (rotl32 x r).getLsbD ((k + r) % 32) := getLsbD_rotl32 _ hq (Nat.mod_lt _ (by decide))
    _ = x.getLsbD k := getLsbD_rotl32 x hr hk

/-- Settles O6: bits, value and inverse of the rotation; amount 0 moves no bit. -/
theorem rotationIsCircular : Obligations.RotationIsCircular := by
  intro x r hr
  refine ⟨fun k hk => getLsbD_rotl32 x hr hk, fun _ => rotl32_toNat x hr, ?identity,
    rotl32_rotl32_cancel x hr (Nat.mod_lt _ (by decide)) (by omega)⟩
  case identity =>
    refine BitVec.eq_of_getLsbD_eq fun k hk => ?_
    have hbit := getLsbD_rotl32 x (r := 0) (by decide) hk
    rwa [Nat.add_zero, Nat.mod_eq_of_lt hk] at hbit

/-- The value of byte `k` of a word. -/
theorem byteOf_toNat (v : Word) (k : Nat) : (byteOf v k).toNat = v.toNat / 2 ^ (8 * k) % 2 ^ 8 := by
  rw [byteOf, BitVec.extractLsb'_toNat, Nat.shiftRight_eq_div_pow]

/-- A bit of byte `k` of a word is bit `8k + b` of the word. -/
theorem getLsbD_byteOf (v : Word) (k : Nat) {b : Nat} (hb : b < 8) : (byteOf v k).getLsbD b = v.getLsbD (8 * k + b) := by
  rw [byteOf, BitVec.getLsbD_extractLsb', decide_eq_true hb, Bool.true_and]

/-- The bytes of a little-endian word are the four it was made of (20_memory.md R45). -/
theorem byteOf_le32 (b0 b1 b2 b3 : Byte) :
    byteOf (le32 b0 b1 b2 b3) 0 = b0 ∧ byteOf (le32 b0 b1 b2 b3) 1 = b1 ∧ byteOf (le32 b0 b1 b2 b3) 2 = b2 ∧
    byteOf (le32 b0 b1 b2 b3) 3 = b3 := by
  have h0 := b0.isLt
  have h1 := b1.isLt
  have h2 := b2.isLt
  have h3 := b3.isLt
  refine ⟨?_, ?_, ?_, ?_⟩ <;> apply BitVec.eq_of_toNat_eq <;> rw [byteOf_toNat, le32_toNat] <;> omega

/-- The little-endian word of a word's four bytes is that word (20_memory.md R45, R47). -/
theorem le32_byteOf (v : Word) : le32 (byteOf v 0) (byteOf v 1) (byteOf v 2) (byteOf v 3) = v := by
  have hv := v.isLt
  apply BitVec.eq_of_toNat_eq
  simp only [le32_toNat, byteOf_toNat]
  omega

/-- Settles O8: the four bytes by their values, and `le32` back and forth on them. -/
theorem serialisationOrder : Obligations.SerialisationOrder := by
  refine ⟨fun v => ⟨?values, rfl, fun b0 b1 b2 b3 h => ?decode⟩, fun b0 b1 b2 b3 => ?encode⟩
  case values => simp [ser32, byteOf_toNat]
  case decode =>
    simp only [ser32, List.cons.injEq, and_true] at h
    obtain ⟨rfl, rfl, rfl, rfl⟩ := h
    exact le32_byteOf v
  case encode =>
    obtain ⟨h0, h1, h2, h3⟩ := byteOf_le32 b0 b1 b2 b3
    rw [ser32, h0, h1, h2, h3]

end Sys2Proof.Machine

/-!
The quarter round as a bijection of register files (41_quarter_round.md R116 to R118, 42_block_compressor.md R134, R135).
-/
namespace Sys2Proof.Machine

theorem add32_sub_cancel_right (x y : Word) : add32 x y - y = x := BitVec.add_sub_cancel x y

theorem add32_of_sub (x y : Word) : add32 (x - y) y = x := BitVec.sub_add_cancel x y

/-- Each rotation of the quarter round is undone by the one of its inverse, and the other way round (R118). -/
theorem quarterRotations_cancel (x : Word) :
    (rotl32 (rotl32 x 16) 16 = x) ∧ (rotl32 (rotl32 x 12) 20 = x ∧ rotl32 (rotl32 x 20) 12 = x) ∧
    (rotl32 (rotl32 x 8) 24 = x ∧ rotl32 (rotl32 x 24) 8 = x) ∧
    (rotl32 (rotl32 x 7) 25 = x ∧ rotl32 (rotl32 x 25) 7 = x) := by
  refine ⟨?_, ⟨?_, ?_⟩, ⟨?_, ?_⟩, ?_, ?_⟩ <;> exact rotl32_rotl32_cancel x (by decide) (by decide) (by decide)

theorem quarterInverse_quarterWords (q : Quad) : quarterInverse (quarterWords q) = q := by
  simp only [quarterInverse, quarterWords, quarterRotations_cancel, xor32_xor32_cancel, add32_sub_cancel_right]

theorem quarterWords_quarterInverse (q : Quad) : quarterWords (quarterInverse q) = q := by
  simp only [quarterInverse, quarterWords, quarterRotations_cancel, xor32_xor32_cancel, add32_of_sub]

/-- Settles O11: every addition, exclusive-or and rotation of one is undone by one of the other. -/
theorem quarterRoundInverse : Obligations.QuarterRoundInverse :=
  ⟨fun q => ⟨quarterInverse_quarterWords q, quarterWords_quarterInverse q⟩, by decide⟩

/-- `v` with the four words of `q` in registers `a`, `b`, `c`, `d`. -/
def writeQuad (a b c d : RegIdx) (q : Quad) (v : RegFile) : RegFile :=
  regWrite (regWrite (regWrite (regWrite v a q.a) b q.b) c q.c) d q.d

theorem quadOf_writeQuad {a b c d : RegIdx} (h : DistinctIndices a b c d) (q : Quad) (v : RegFile) :
    quadOf a b c d (writeQuad a b c d q v) = q := by
  obtain ⟨hab, hac, had, hbc, hbd, hcd⟩ := h
  simp [quadOf, writeQuad, regRead_regWrite, *]

theorem regRead_writeQuad_other {a b c d k : RegIdx} (ha : k ≠ a) (hb : k ≠ b) (hc : k ≠ c) (hd : k ≠ d) (q : Quad)
    (v : RegFile) : regRead (writeQuad a b c d q v) k = regRead v k := by
  simp [writeQuad, regRead_regWrite, *]

/-- What a quarter round leaves in a register depends on its four registers and on that register only (R117). -/
theorem regRead_quarterRound_congr {a b c d k : RegIdx} (h : DistinctIndices a b c d) {v w : RegFile}
    (hquad : quadOf a b c d v = quadOf a b c d w) (hk : regRead v k = regRead w k) :
    regRead (quarterRound a b c d v) k = regRead (quarterRound a b c d w) k := by
  have hwords : quadOf a b c d (quarterRound a b c d v) = quadOf a b c d (quarterRound a b c d w) := by
    rw [quadOf_quarterRound h, quadOf_quarterRound h, hquad]
  simp only [quadOf, Quad.mk.injEq] at hwords
  obtain ⟨ha, hb, hc, hd⟩ := hwords
  by_cases hka : k = a
  · rw [hka, ha]
  by_cases hkb : k = b
  · rw [hkb, hb]
  by_cases hkc : k = c
  · rw [hkc, hc]
  by_cases hkd : k = d
  · rw [hkd, hd]
  rw [regRead_quarterRound_other h hka hkb hkc hkd, regRead_quarterRound_other h hka hkb hkc hkd, hk]

/-- The quarter round on distinct registers is a bijection of register files: `quarterInverse` on the four registers undoes
it (R118), and the other twelve keep their words. -/
theorem quarterRound_bijective {a b c d : RegIdx} (h : DistinctIndices a b c d) :
    Function.Bijective (quarterRound a b c d) := by
  constructor
  case left =>
    intro v w hvw
    refine regFile_ext_quad (a := a) (b := b) (c := c) (d := d) ?_ fun k ha hb hc hd => ?_
    · have hwords := congrArg (quadOf a b c d) hvw
      rw [quadOf_quarterRound h, quadOf_quarterRound h] at hwords
      rw [← quarterInverse_quarterWords (quadOf a b c d v), hwords, quarterInverse_quarterWords]
    · have hk := congrArg (regRead · k) hvw
      simpa only [regRead_quarterRound_other h ha hb hc hd] using hk
  case right =>
    intro w
    refine ⟨writeQuad a b c d (quarterInverse (quadOf a b c d w)) w, ?_⟩
    refine regFile_ext_quad (a := a) (b := b) (c := c) (d := d) ?_ fun k ha hb hc hd => ?_
    · rw [quadOf_quarterRound h, quadOf_writeQuad h, quarterWords_quarterInverse]
    · rw [regRead_quarterRound_other h ha hb hc hd, regRead_writeQuad_other ha hb hc hd]

theorem colRound_bijective : Function.Bijective colRound :=
  (quarterRound_bijective (by decide)).comp <| (quarterRound_bijective (by decide)).comp <|
    (quarterRound_bijective (by decide)).comp <| quarterRound_bijective (by decide)

theorem diagRound_bijective : Function.Bijective diagRound :=
  (quarterRound_bijective (by decide)).comp <| (quarterRound_bijective (by decide)).comp <|
    (quarterRound_bijective (by decide)).comp <| quarterRound_bijective (by decide)

theorem doubleRounds_bijective (n : Nat) : Function.Bijective (doubleRounds n) := by
  induction n with
  | zero => exact Function.bijective_id
  | succ n ih => exact ih.comp (diagRound_bijective.comp colRound_bijective)

/-- Settles O23: ten double rounds, each a composition of eight quarter rounds on distinct registers. -/
theorem rounds20IsABijection : Obligations.Rounds20IsABijection := doubleRounds_bijective 10

/-- A quarter round leaves the four words of a group of registers disjoint from its own (R117). -/
theorem quadOf_quarterRound_disjoint {a b c d e f g h : RegIdx} (hd : DistinctIndices e f g h)
    (hdisj : ∀ x ∈ [a, b, c, d], ∀ y ∈ [e, f, g, h], x ≠ y) (v : RegFile) :
    quadOf a b c d (quarterRound e f g h v) = quadOf a b c d v := by
  have hread : ∀ x ∈ [a, b, c, d], regRead (quarterRound e f g h v) x = regRead v x := fun x hx =>
    regRead_quarterRound_other hd (hdisj x hx e (by simp)) (hdisj x hx f (by simp)) (hdisj x hx g (by simp))
      (hdisj x hx h (by simp)) v
  rw [quadOf, hread a (by simp), hread b (by simp), hread c (by simp), hread d (by simp), quadOf]

/-- Quarter rounds on disjoint groups of registers commute (42_block_compressor.md R135). -/
theorem quarterRound_comm {a b c d e f g h : RegIdx} (hd : DistinctIndices a b c d) (hd' : DistinctIndices e f g h)
    (hdisj : ∀ x ∈ [a, b, c, d], ∀ y ∈ [e, f, g, h], x ≠ y) (v : RegFile) :
    quarterRound a b c d (quarterRound e f g h v) = quarterRound e f g h (quarterRound a b c d v) := by
  have hdisj' : ∀ y ∈ [e, f, g, h], ∀ x ∈ [a, b, c, d], y ≠ x := fun y hy x hx => (hdisj x hx y hy).symm
  refine regFile_ext_quad (a := a) (b := b) (c := c) (d := d) ?_ fun k hka hkb hkc hkd => ?_
  · rw [quadOf_quarterRound hd, quadOf_quarterRound_disjoint hd' hdisj, quadOf_quarterRound_disjoint hd' hdisj,
      quadOf_quarterRound hd]
  · rw [regRead_quarterRound_other hd hka hkb hkc hkd]
    exact regRead_quarterRound_congr hd' (quadOf_quarterRound_disjoint hd hdisj' v).symm
      (regRead_quarterRound_other hd hka hkb hkc hkd v).symm

/-- Settles O13: both orders complete, with the two quarter rounds of `W`, which commute. -/
theorem disjointQuarterRoundsCommute : Obligations.DisjointQuarterRoundsCommute := by
  intro a b c d e f g h s hd hd' hdisj
  rw [execList_qr_cons hd, execList_qr_cons hd', execList_qr_cons hd', execList_qr_cons hd]
  simp only [State.setW_W, State.setW_setW]
  rw [quarterRound_comm hd hd' hdisj]

/-- The index groups of the eight quarter rounds of a double round (30_encoding.md R79). -/
def indexGroups : List (RegIdx × RegIdx × RegIdx × RegIdx) :=
  [(0, 4, 8, 12), (1, 5, 9, 13), (2, 6, 10, 14), (3, 7, 11, 15), (0, 5, 10, 15), (1, 6, 11, 12), (2, 7, 8, 13),
    (3, 4, 9, 14)]

/-- The quarter rounds of the micro-program are on the eight index groups (30_encoding.md R78, R79). -/
theorem microInstr_qr_mem_indexGroups {t : Fin 84} {a b c d : RegIdx} (h : microInstr t = .qr a b c d) :
    (a, b, c, d) ∈ indexGroups := by
  have hall : ∀ t : Fin 84, microInstr t ∈ indexGroups.map (fun g => Instr.qr g.1 g.2.1 g.2.2.1 g.2.2.2) ∨
      microInstr t ∈ [Instr.copy, .adds, .ser, .ctrinc] := by decide +kernel
  rcases hall t with hqr | hother
  · rw [h] at hqr
    obtain ⟨g, hg, heq⟩ := List.mem_map.mp hqr
    cases heq
    exact hg
  · rw [h] at hother
    simp at hother

theorem execQr_of_repeated {a b c d : RegIdx} (h : ¬ DistinctIndices a b c d) (s : State) :
    exec (.qr a b c d) s = .refused .repeatedIndex := if_neg h

/-- Settles O12: repeated indices fail the check of well-formedness, which every decoded operation passes. -/
theorem repeatedIndicesRefused : Obligations.RepeatedIndicesRefused := by
  refine ⟨fun a b c d s h => ⟨execQr_of_repeated h s, decide_eq_false h, fun w hw => ?undecodable⟩,
    fun t a b c d h => ?schedule⟩
  case undecodable =>
    obtain ⟨hwf, -⟩ := decode_eq_ok_iff.mp hw
    exact h (of_decide_eq_true hwf)
  case schedule =>
    have hmicro : microInstr t = .qr a b c d := Except.ok.inj ((decode_microWord t).symm.trans h)
    have hwf : (Instr.qr a b c d).wellFormed = true := hmicro ▸ microInstr_wellFormed t
    exact ⟨microInstr_qr_mem_indexGroups hmicro, of_decide_eq_true hwf⟩

end Sys2Proof.Machine

/-!
INIT byte by byte (40_state_init.md R101, R104), and where INIT and SER stop (20_memory.md R40).
-/
namespace Sys2Proof.Machine

/-- Byte `k` of the little-endian word at an address is the byte `k` places above it (20_memory.md R45). -/
theorem byteOf_memReadLe32 (m : Memory) (a : Nat) {k : Nat} (hk : k < 4) :
    byteOf (memReadLe32 m a) k = memRead m (a + k) := by
  obtain ⟨h0, h1, h2, h3⟩ := byteOf_le32 (memRead m a) (memRead m (a + 1)) (memRead m (a + 2)) (memRead m (a + 3))
  interval_cases k
  · exact h0
  · exact h1
  · exact h2
  · exact h3

/-- Bit `b` of byte `j` of a buffer is bit `8 (j mod 4) + b` of the buffer's word `j div 4` (40_state_init.md R101). -/
theorem getLsbD_memReadLe32 (m : Memory) (a j : Nat) {b : Nat} (hb : b < 8) :
    (memReadLe32 m (a + 4 * (j / 4))).getLsbD (8 * (j % 4) + b) = (memRead m (a + j)).getLsbD b := by
  rw [← getLsbD_byteOf _ _ hb, byteOf_memReadLe32 m _ (Nat.mod_lt j (by decide)), Nat.add_assoc, Nat.div_add_mod]

/-- Settles O15: the byte's word of INIT's file, then the byte's bits in that word. -/
theorem initByteMap : Obligations.InitByteMap := by
  intro s u h
  obtain ⟨-, rfl⟩ := execInit_next.mp h
  refine ⟨fun j b hb => ?key, fun j b hb => ?nonce⟩
  case key =>
    have hword := regRead_initFile_key s.mem s.params.keyAddr.toNat s.params.nonceAddr.toNat ⟨j.val / 4, by omega⟩
    exact (congrArg (BitVec.getLsbD · _) hword).trans (getLsbD_memReadLe32 _ _ _ hb)
  case nonce =>
    have hword := regRead_initFile_nonce s.mem s.params.keyAddr.toNat s.params.nonceAddr.toNat ⟨j.val / 4, by omega⟩
    exact (congrArg (BitVec.getLsbD · _) hword).trans (getLsbD_memReadLe32 _ _ _ hb)

/-- The little-endian word depends on its four bytes only. -/
theorem memReadLe32_congr {m m' : Memory} {a a' n : Nat} (h : ∀ k, k < n → memRead m (a + k) = memRead m' (a' + k)) {k : Nat}
    (hk : k + 3 < n) : memReadLe32 m (a + k) = memReadLe32 m' (a' + k) := by
  have h0 := h k (by omega)
  have h1 := h (k + 1) (by omega)
  have h2 := h (k + 2) (by omega)
  have h3 := h (k + 3) hk
  simp only [← Nat.add_assoc] at h1 h2 h3
  rw [memReadLe32, h0, h1, h2, h3, memReadLe32]

/-- INIT's file depends on the 32 key bytes and the 12 nonce bytes only (40_state_init.md R104). -/
theorem initFile_congr {m m' : Memory} {a a' n n' : Nat} (hkey : ∀ k, k < 32 → memRead m (a + k) = memRead m' (a' + k))
    (hnonce : ∀ k, k < 12 → memRead m (n + k) = memRead m' (n' + k)) : initFile m a n = initFile m' a' n' := by
  have hkey0 := memReadLe32_congr hkey (k := 0) (by decide)
  have hnonce0 := memReadLe32_congr hnonce (k := 0) (by decide)
  rw [Nat.add_zero, Nat.add_zero] at hkey0 hnonce0
  rw [initFile, hkey0, memReadLe32_congr hkey (k := 4) (by decide), memReadLe32_congr hkey (k := 8) (by decide),
    memReadLe32_congr hkey (k := 12) (by decide), memReadLe32_congr hkey (k := 16) (by decide),
    memReadLe32_congr hkey (k := 20) (by decide), memReadLe32_congr hkey (k := 24) (by decide),
    memReadLe32_congr hkey (k := 28) (by decide), hnonce0, memReadLe32_congr hnonce (k := 4) (by decide),
    memReadLe32_congr hnonce (k := 8) (by decide), initFile]

/-- Settles O16: INIT's `S` is its file, which is made of those bytes. -/
theorem initHasNoHiddenInput : Obligations.InitHasNoHiddenInput := by
  intro s s' u u' hkey hnonce h h'
  obtain ⟨-, rfl⟩ := execInit_next.mp h
  obtain ⟨-, rfl⟩ := execInit_next.mp h'
  exact initFile_congr hkey hnonce

/-- INIT stops exactly when the key or the nonce leaves the address space. -/
theorem exec_init_fault_iff {s : State} : exec .init s = .fault .addressOutsideSpace ↔
    ¬ (s.params.keyAddr.toNat + 32 ≤ 2 ^ 32 ∧ s.params.nonceAddr.toNat + 12 ≤ 2 ^ 32) := by
  rw [exec, execInit]
  split
  · next h =>
    rw [Bool.and_eq_true, inSpace_iff, inSpace_iff] at h
    exact ⟨fun e => (by cases e), fun hn => absurd h hn⟩
  · next h =>
    rw [Bool.and_eq_true, inSpace_iff, inSpace_iff] at h
    exact ⟨fun _ => h, fun _ => rfl⟩

/-- SER stops exactly when `OUT` leaves the address space. -/
theorem exec_ser_fault_iff {s : State} : exec .ser s = .fault .addressOutsideSpace ↔
    ¬ s.params.outAddr.toNat + 64 ≤ 2 ^ 32 := by
  rw [exec, execSer]
  split
  · next h => exact ⟨fun e => (by cases e), fun hn => absurd (inSpace_iff.mp h) hn⟩
  · next h => exact ⟨fun _ hn => h (inSpace_iff.mpr hn), fun _ => rfl⟩

/-- Settles O17: each operation's own stop, and `exec_completes` on an admissible platform. -/
theorem buffersOutsideTheSpaceStop : Obligations.BuffersOutsideTheSpaceStop := by
  intro s
  refine ⟨?init, ?ser, fun hadm => ⟨exec_completes rfl hadm, exec_completes rfl hadm⟩⟩
  case init => rw [exec_init_fault_iff, not_and_or, not_le, not_le]
  case ser => rw [exec_ser_fault_iff, not_le]

end Sys2Proof.Machine

/-!
The block operations and BLOCK (42_block_compressor.md R136, R142, R144).
-/
namespace Sys2Proof.Machine

/-- Settles O19: ADDS's file is the elementwise sum. -/
theorem addsResult : Obligations.AddsResult := by
  refine ⟨fun s => ⟨addFiles s.W s.S, exec_adds_eq s, fun k => ?sum⟩, rfl, rfl⟩
  case sum => rw [regRead_addFiles, add32_toNat]

/-- Settles O24: BLOCK completes with `afterBlock`, read at each word and each byte. -/
theorem blockEffect : Obligations.BlockEffect := by
  refine ⟨⟨rfl, rfl⟩, fun s hwf hout => ?effect⟩
  case effect =>
    exact ⟨blockWords s.S, counterNext s.S, _, execList_blockOps hout, regRead_addFiles _ _,
      regRead_counterNext_counter s.S, fun k hk => regRead_counterNext_other s.S hk,
      fun k j hj => memRead_serFile_word hwf hout _ _ k hj, fun x hx => memRead_serFile_outside hwf hout _ _ hx⟩

/-- A list of operations that completes does so operation by operation. -/
theorem execList_cons_next {i : Instr} {l : List Instr} {s u : State} (h : execList (i :: l) s = .next u) :
    ∃ x, exec i s = .next x ∧ execList l x = .next u := by
  rw [execList] at h
  split at h
  · next x hx => exact ⟨x, hx, h⟩
  · cases h
  · cases h

/-- BLOCK completes only when `OUT` lies in the address space, where SER stops otherwise. -/
theorem execList_blockOps_next {s u : State} (h : execList blockOps s = .next u) :
    s.params.outAddr.toNat + 64 ≤ 2 ^ 32 ∧ u = afterBlock s := by
  have hout : s.params.outAddr.toNat + 64 ≤ 2 ^ 32 := by
    rw [blockOps, execList_cons (exec_copy_eq s), execList_append (execList_rounds20Ops _),
      execList_cons (exec_adds_eq _)] at h
    obtain ⟨x, hx, -⟩ := execList_cons_next h
    exact (execSer_next.mp hx).1
  rw [execList_blockOps hout] at h
  exact ⟨hout, (Host.Outcome.next.inj h).symm⟩

/-- Settles O25: `OUT` and `S` after BLOCK are functions of `S` and the byte order. -/
theorem blockDependsOnlyOnCipherState : Obligations.BlockDependsOnlyOnCipherState := by
  intro s s' u u' hwf hwf' hS horder h h'
  obtain ⟨hout, rfl⟩ := execList_blockOps_next h
  obtain ⟨hout', rfl⟩ := execList_blockOps_next h'
  refine ⟨by rw [afterBlock_S, afterBlock_S, hS], fun k hk => Option.some.inj ?out⟩
  case out => rw [memRead_afterBlock_out hwf hout hk, memRead_afterBlock_out hwf' hout' hk, hS, horder]

end Sys2Proof.Machine

/-!
The Host Signal Channel: what each operation issues, and what a step does while a request is pending
(44_host_signal_channel.md, 60_exceptions.md R199).
-/
namespace Sys2Proof.Machine

/-- Settles O27: each issue half is one update of the channel, each word a constant of the encoder. -/
theorem signalsIssueTheirRequests : Obligations.SignalsIssueTheirRequests :=
  ⟨fun _ => ⟨rfl, rfl, rfl, rfl⟩, rfl, rfl, rfl, rfl⟩

/-- HALT completes (44_host_signal_channel.md R177). -/
theorem exec_halt_eq (s : State) : exec .halt s = .next ((s.setChan .pendingHalt).setTop .T8) := rfl

/-- Settles O30: by HALT's own equation. -/
theorem haltResult : Obligations.HaltResult := ⟨exec_halt_eq, rfl⟩

/-- Settles O32: what the host receives, for each value of the channel. -/
theorem haltIsItsOwnRequest : Obligations.HaltIsItsOwnRequest := by
  intro s
  unfold hostReceives
  cases s.chan with
  | idle => simp
  | pending type value => simp
  | pendingHalt => simp

/-- Each SIG operation only makes its request pending (44_host_signal_channel.md R170). -/
theorem exec_signal {i : Instr} (hi : i ∈ [Instr.sigKey, .sigNonce, .sigCount, .sigOut]) (s : State) :
    ∃ type value, exec i s = .next (s.setChan (.pending type value)) := by
  simp only [List.mem_cons, List.not_mem_nil, or_false] at hi
  obtain rfl | rfl | rfl | rfl := hi <;> exact ⟨_, _, rfl⟩

/-- While a signal is pending and unanswered, a step changes nothing (R170, R179). -/
theorem step_of_blocked {s : State} (hadm : admissible s.params = true) (hc : Waiting s) (hh : s.host = []) :
    step s = .next s := by
  obtain ⟨type, value, hc⟩ := hc
  rw [step_of_pending hadm hc, awaitResponse, hh]

/-- The response half: the channel is idle, SIG.COUNT latches the response, and the position advances (R170). -/
theorem step_of_response {s : State} {type value r : Word} {rest : List Word} (hadm : admissible s.params = true)
    (hc : s.chan = .pending type value) (hh : s.host = r :: rest) :
    step s = .next (advance { s with chan := .idle, host := rest, N := if type = 2 then r else s.N }) := by
  have hawait : awaitResponse s = respond r (s.setHost rest) := by rw [awaitResponse, hh]
  rw [step_of_pending hadm hc, hawait, respond, State.setHost_chan, hc]
  dsimp only [responseEffect]
  split <;> rfl

/-- Settles O28: by the issue half of each operation and the two kinds of step while its request is pending. -/
theorem signalHalves : Obligations.SignalHalves := by
  refine ⟨fun s u i hi h => ?issue, fun s type value hadm hc => ⟨fun u hh h => ?unanswered, fun r rest hh => ?answered⟩⟩
  case issue =>
    obtain ⟨type, value, hx⟩ := exec_signal hi s
    cases h.symm.trans hx
    exact ⟨⟨type, value, rfl⟩, rfl⟩
  case unanswered => exact (Host.Outcome.next.inj ((step_of_blocked hadm ⟨type, value, hc⟩ hh).symm.trans h)).symm
  case answered => exact step_of_response hadm hc hh

/-- Running from a state that a step answers with itself. -/
theorem run_of_step_self {s : State} (h : step s = .next s) (k : Nat) : run k s = .next s := by
  induction k with
  | zero => rfl
  | succ k ih => rw [run_succ_of_next h, ih]

/-- A step that answers the same state issues no request. -/
theorem issued_self (s : State) : issued s s = [] := if_neg fun ⟨hidle, hbusy⟩ => hbusy hidle

theorem requestTrace_of_step_self {s : State} (h : step s = .next s) (k : Nat) : requestTrace k s = [] := by
  induction k with
  | zero => rfl
  | succ k ih => rw [requestTrace, h]; exact (congrArg₂ (· ++ ·) (issued_self s) ih)

/-- Settles O29: a blocked step answers the same state, whose channel is not the final one. -/
theorem blockedUntilAnswered : Obligations.BlockedUntilAnswered := by
  intro k s hadm hc hh
  refine ⟨run_of_step_self (step_of_blocked hadm hc hh) k, fun ⟨_, hhalt⟩ => ?notFinal⟩
  case notFinal =>
    obtain ⟨type, value, hc⟩ := hc
    rw [hc] at hhalt
    cases hhalt

/-- Settles O31: a step after the halt request answers the same state. -/
theorem haltedForever : Obligations.HaltedForever := fun k _ hadm hc =>
  ⟨run_of_step_self (step_of_pendingHalt hadm hc) k, requestTrace_of_step_self (step_of_pendingHalt hadm hc) k⟩

end Sys2Proof.Machine

/-!
The sequencer's steps: one operation at a step (43_keystream_driver.md section 1), and what the step at each position of the
fixed schedule does (30_encoding.md R77).
-/
namespace Sys2Proof.Machine

/-- After its operation a step uses up the issued word, and moves the position unless a request is pending. -/
theorem complete_eq (s : State) :
    complete s = if s.chan = .idle then advance { s with issue := none } else { s with issue := none } := by
  unfold complete
  split
  · next hc => rw [if_pos hc]; rfl
  · next hc => rw [if_neg (by simp [hc])]; rfl
  · next hc => rw [if_neg (by simp [hc])]; rfl

/-- A decoded operation completes on an admissible platform: it is well-formed. -/
theorem exec_completes_of_decode {w : Word} {i : Instr} {s : State} (hd : decode w = .ok i)
    (hadm : admissible s.params = true) : ∃ u, exec i s = .next u :=
  exec_completes (decode_eq_ok_iff.mp hd).1 hadm

/-- A step refuses a reserved word by name (30_encoding.md R76). -/
theorem step_of_reserved {s : State} {w : Word} {e : Reserved} (hadm : admissible s.params = true) (hc : s.chan = .idle)
    (hf : fetchWord s = some w) (hd : decode w = .error e) : step s = .refused (.reservedWord e) := by
  simp [step, hadm, hc, hf, runWord, hd]

/-- An operation of the opcode table is the one that its word decodes to. -/
theorem decode_of_decodeTableWord {nbits w : Nat} {i : Instr} (h : decodeTableWord nbits w = some i) :
    decode (BitVec.ofNat 32 (tableWord nbits w)) = .ok i := by
  unfold decodeTableWord at h
  split at h
  · split at h
    · next hd => rw [hd, Option.some.inj h]
    · cases h
  · cases h

/-- Settles O33: by the cases of the decoder; a word put in place is the one fetched. -/
theorem stepRunsTheDecodedOperation : Obligations.StepRunsTheDecodedOperation := by
  refine ⟨fun s w hadm hc hf => ⟨fun e hd => step_of_reserved hadm hc hf hd, fun i hd => ?performs⟩,
    fun s nbits w i h => ⟨rfl, _, rfl, decode_of_decodeTableWord h⟩⟩
  case performs =>
    obtain ⟨u, hx⟩ := exec_completes_of_decode hd hadm
    refine ⟨u, hx, ?_⟩
    rw [step_of_decode hadm hc hf hd, hx, mapNext_next, complete_eq]

/-- Settles O34: the words by definition, and the micro-program by evaluation of its 84 words. -/
theorem scheduleHoldsTheRun : Obligations.ScheduleHoldsTheRun := by
  refine ⟨fun t => ⟨rfl, rfl, rfl, rfl, rfl, rfl, rfl, rfl, rfl⟩, ?microProgram⟩
  case microProgram => decide +kernel

theorem advance_of_T0 {s : State} (h : s.top = .T0) : advance s = s.setTop .T1 := by rw [advance, h]
theorem advance_of_T1 {s : State} (h : s.top = .T1) : advance s = s.setTop .T2 := by rw [advance, h]
theorem advance_of_T2 {s : State} (h : s.top = .T2) : advance s = s.setTop .T3 := by rw [advance, h]
theorem advance_of_T3 {s : State} (h : s.top = .T3) : advance s = (s.setI 0).setTop .T4 := by rw [advance, h]
theorem advance_of_T4 {s : State} (h : s.top = .T4) : advance s = enterLoop s := by rw [advance, h]
theorem advance_of_T6 {s : State} (h : s.top = .T6) : advance s = s.setTop .T7 := by rw [advance, h]

/-- The state after the response `r` to the position's request, before the position moves: only T2 latches `r` (R151). -/
def answered (s : State) (r : Word) (rest : List Word) : State :=
  { s with chan := .idle, host := rest, N := if s.top = .T2 then r else s.N }

@[simp] theorem answered_i (s : State) (r : Word) (l : List Word) : (answered s r l).i = s.i := rfl
@[simp] theorem answered_top (s : State) (r : Word) (l : List Word) : (answered s r l).top = s.top := rfl

theorem answered_of_ne_T2 {s : State} (h : s.top ≠ .T2) (r : Word) (l : List Word) :
    answered s r l = { s with chan := .idle, host := l } := by
  rw [answered, if_neg h]

theorem answered_of_T2 {s : State} (h : s.top = .T2) (r : Word) (l : List Word) :
    answered s r l = { s with chan := .idle, host := l, N := r } := by
  rw [answered, if_pos h]

/-- The request of a position is a signal, and its type is 2 at T2 only (30_encoding.md R80). -/
theorem requestAt_eq_some {p : Params} {top : Top} {c : Chan} (h : requestAt p top = some c) :
    ∃ type value, c = .pending type value ∧ (type = 2 ↔ top = .T2) := by
  cases top with
  | T0 | T1 | T2 | T4 | T6 =>
    cases h
    exact ⟨_, _, rfl, by decide⟩
  | T3 | T5 | T7 | T8 => cases h

/-- The step that takes the response to the position's own request. -/
theorem step_of_answer {s : State} {r : Word} {rest : List Word} (hadm : admissible s.params = true)
    (hreq : some s.chan = requestAt s.params s.top) (hh : s.host = r :: rest) :
    step s = .next (advance (answered s r rest)) := by
  obtain ⟨type, value, hc, htype⟩ := requestAt_eq_some hreq.symm
  rw [step_of_response hadm hc hh, answered]
  simp only [htype]

/-- Settles O35: `step_of_answer`, then the move at each of the five positions; without a response the step is blocked. -/
theorem signalPositionsAdvance : Obligations.SignalPositionsAdvance := by
  intro s hadm hreq
  refine ⟨fun u hh h => ?unanswered, fun r rest hh => ?answered⟩
  case unanswered =>
    obtain ⟨type, value, hc, -⟩ := requestAt_eq_some hreq.symm
    cases (step_of_blocked hadm ⟨type, value, hc⟩ hh).symm.trans h
    exact ⟨rfl, rfl⟩
  case answered =>
    rw [step_of_answer hadm hreq hh]
    have hsame := answered_top s r rest
    refine ⟨fun htop => ?T0, fun htop => ?T1, fun htop => ?T2, fun htop hlt => ?T4_block, fun htop hge => ?T4_past,
      fun htop => ?T6⟩
    case T0 => rw [advance_of_T0 (hsame.trans htop), answered_of_ne_T2 (by simp [htop])]; rfl
    case T1 => rw [advance_of_T1 (hsame.trans htop), answered_of_ne_T2 (by simp [htop])]; rfl
    case T2 => rw [advance_of_T2 (hsame.trans htop), answered_of_T2 htop]; rfl
    case T4_block =>
      rw [advance_of_T4 (hsame.trans htop), answered_of_ne_T2 (by simp [htop])]
      exact congrArg Host.Outcome.next (enterLoop_of_lt hlt)
    case T4_past =>
      rw [advance_of_T4 (hsame.trans htop), answered_of_ne_T2 (by simp [htop])]
      exact congrArg Host.Outcome.next (enterLoop_of_not_lt hge)
    case T6 => rw [advance_of_T6 (hsame.trans htop), answered_of_ne_T2 (by simp [htop])]; rfl

/-- An update that leaves the empty issued word is not undone by using it up. -/
theorem setIssue_none_of_schedule {s : State} (hs : OnSchedule s) : s.setIssue none = s := by
  rw [State.setIssue, ← hs]

/-- A step whose scheduled operation issues a request waits at its position. -/
theorem step_of_exec_busy {s u : State} {w : Word} {i : Instr} (hadm : admissible s.params = true) (hs : OnSchedule s)
    (hc : s.chan = .idle) (hw : scheduleWord s.top s.t = some w) (hd : decode w = .ok i) (hx : exec i s = .next u)
    (hu : u.chan ≠ .idle) : step s = .next u := by
  have hf : fetchWord s = some w := by rw [fetchWord, hs]; exact hw
  obtain ⟨-, -, -, -, -, hissue⟩ := exec_frame hx
  rw [step_of_decode hadm hc hf hd, hx, mapNext_next, complete_eq, if_neg hu]
  exact congrArg Host.Outcome.next (setIssue_none_of_schedule (hissue.trans hs))

/-- At a signal's position with the channel idle a step makes the position's own request pending (R151, R153, R155). -/
theorem step_of_issue {s : State} {c : Chan} (hadm : admissible s.params = true) (hs : OnSchedule s) (hc : s.chan = .idle)
    (hreq : requestAt s.params s.top = some c) : step s = .next (s.setChan c) := by
  cases htop : s.top with
  | T0 =>
    rw [htop] at hreq; cases hreq
    exact step_of_exec_busy (i := .sigKey) hadm hs hc (by rw [htop]; rfl) (by decide) rfl (by simp)
  | T1 =>
    rw [htop] at hreq; cases hreq
    exact step_of_exec_busy (i := .sigNonce) hadm hs hc (by rw [htop]; rfl) (by decide) rfl (by simp)
  | T2 =>
    rw [htop] at hreq; cases hreq
    exact step_of_exec_busy (i := .sigCount) hadm hs hc (by rw [htop]; rfl) (by decide) rfl (by simp)
  | T4 | T6 =>
    rw [htop] at hreq; cases hreq
    exact step_of_exec_busy (i := .sigOut) hadm hs hc (by rw [htop]; rfl) (by decide) rfl (by simp)
  | T3 | T5 | T7 | T8 => rw [htop] at hreq; cases hreq

/-- INIT on an admissible platform (40_state_init.md R100). -/
theorem exec_init_of_admissible {s : State} (hadm : admissible s.params = true) :
    exec .init s = .next (s.setS (initOf s)) := by
  obtain ⟨⟨hkey, hnonce, -⟩, -, -⟩ := admissible_iff.mp hadm
  exact execInit_next.mpr ⟨⟨hkey, hnonce⟩, rfl⟩

/-- The step at T3 (R152). -/
theorem step_at_T3 {s : State} (hadm : admissible s.params = true) (hs : OnSchedule s) (hc : s.chan = .idle)
    (htop : s.top = .T3) : step s = .next (((s.setS (initOf s)).setI 0).setTop .T4) := by
  have hx := exec_init_of_admissible hadm
  have hu : (s.setS (initOf s)).top = .T3 := htop
  rw [step_of_exec_idle (w := 0x10000000) hadm hs hc (by rw [htop]; rfl) (by decide) hx hc, advance_of_T3 hu]

/-- The step at T7 (R156). -/
theorem step_at_T7 {s : State} (hadm : admissible s.params = true) (hs : OnSchedule s) (hc : s.chan = .idle)
    (htop : s.top = .T7) : step s = .next ((s.setChan .pendingHalt).setTop .T8) :=
  step_of_exec_busy (i := .halt) hadm hs hc (by rw [htop]; rfl) (by decide) rfl (by simp)

/-- Settles O37: by the steps at the two positions. -/
theorem initAndHaltPositionsAdvance : Obligations.InitAndHaltPositionsAdvance := fun s hadm hs hc =>
  ⟨fun htop => ⟨initOf s, exec_init_of_admissible hadm, step_at_T3 hadm hs hc htop⟩, step_at_T7 hadm hs hc⟩

/-- The step at T5 performs the operation of the micro-program and moves past it (R154). -/
theorem step_at_T5 {s : State} (hadm : admissible s.params = true) (hs : OnSchedule s) (hc : s.chan = .idle)
    (htop : s.top = .T5) : ∃ x, exec (microInstr s.t) s = .next x ∧ step s = .next (advanceBlock x) := by
  obtain ⟨x, hx⟩ := exec_completes (microInstr_wellFormed s.t) hadm
  obtain ⟨hchan, hxtop⟩ := exec_chan_top (microInstr_notMem_requestOps s.t) hx
  refine ⟨x, hx, ?_⟩
  rw [step_of_exec_idle hadm hs hc (by rw [htop]; rfl) (decode_microWord s.t) hx (hchan.trans hc),
    advance_of_T5 (hxtop.trans htop)]

end Sys2Proof.Machine

/-!
What operations and steps can do to the working block and to memory (10_state.md R10, R19 to R21).
-/
namespace Sys2Proof.Machine

/-- Everything a completed operation can do to the working block. -/
theorem exec_W_cases {i : Instr} {s u : State} (h : exec i s = .next u) :
    u.W = s.W ∨ i = .copy ∨ i = .adds ∨
      ∃ a b c d, i = .qr a b c d ∧ DistinctIndices a b c d ∧ u.W = quarterRound a b c d s.W := by
  rcases exec_next_cases h with ⟨_, _, -, rfl⟩ | ⟨-, rfl⟩ | ⟨-, rfl⟩ | ⟨hi, -⟩ | ⟨a, b, c, d, hi, hd, rfl⟩ | ⟨hi, -⟩ |
    ⟨-, -, rfl⟩ | ⟨-, rfl⟩
  · exact .inl rfl
  · exact .inl rfl
  · exact .inl rfl
  · exact .inr (.inl hi)
  · exact .inr (.inr (.inr ⟨a, b, c, d, hi, hd, rfl⟩))
  · exact .inr (.inr (.inl hi))
  · exact .inl rfl
  · exact .inl rfl

/-- An operation that does not read the working block does the same from a state with any other: COPY loads the same words,
the others keep the ones they find. -/
theorem exec_setW {i : Instr} {s u : State} (hadds : i ≠ .adds) (hser : i ≠ .ser) (hqr : ∀ a b c d, i ≠ .qr a b c d)
    (h : exec i s = .next u) (v : RegFile) : exec i (s.setW v) = .next (u.setW (if i = .copy then u.W else v)) := by
  cases i with
  | sigKey | sigNonce | sigCount | sigOut | halt | copy | ctrinc => cases h; rfl
  | init =>
    obtain ⟨hspace, rfl⟩ := execInit_next.mp h
    exact execInit_next.mpr ⟨hspace, rfl⟩
  | qr a b c d => exact absurd rfl (hqr a b c d)
  | adds => exact absurd rfl hadds
  | ser => exact absurd rfl hser

/-- Settles O45: who writes `W` by `exec_W_cases`, who reads it by `exec_setW`. -/
theorem workingBlockAccess : Obligations.WorkingBlockAccess := by
  refine ⟨fun i s u h => ⟨fun hcopy hadds hqr => ?frame, fun a b c d hi k ha hb hc hd => ?otherRegisters⟩,
    fun i s u v hadds hser hqr h => exec_setW hadds hser hqr h v⟩
  case frame =>
    rcases exec_W_cases h with hW | hi | hi | ⟨a, b, c, d, hi, -⟩
    · exact hW
    · exact absurd hi hcopy
    · exact absurd hi hadds
    · exact absurd hi (hqr a b c d)
  case otherRegisters =>
    subst hi
    obtain ⟨hdistinct, rfl⟩ := execQr_next.mp h
    exact regRead_quarterRound_other hdistinct ha hb hc hd s.W

/-- Everything a completed operation can do to memory: SER writes a serialised file at `OUT`. -/
theorem exec_mem_cases {i : Instr} {s u : State} (h : exec i s = .next u) :
    u.mem = s.mem ∨ (i = .ser ∧ s.params.outAddr.toNat + 64 ≤ 2 ^ 32 ∧
      u.mem = memWriteList s.mem s.params.outAddr.toNat (serFile s.params.byteOrder s.W)) := by
  rcases exec_next_cases h with ⟨_, _, -, rfl⟩ | ⟨-, rfl⟩ | ⟨-, rfl⟩ | ⟨-, rfl⟩ | ⟨_, _, _, _, -, -, rfl⟩ | ⟨-, rfl⟩ |
    ⟨hi, hout, rfl⟩ | ⟨-, rfl⟩
  pick_goal 7
  · exact .inr ⟨hi, hout, rfl⟩
  all_goals exact .inl rfl

/-- Everything a step can do to memory: nothing, or write a serialised file at `OUT`. -/
theorem step_mem_cases {s u : State} (h : step s = .next u) : u.params = s.params ∧
    (u.mem = s.mem ∨ ∃ order v, u.mem = memWriteList s.mem s.params.outAddr.toNat (serFile order v)) := by
  obtain ⟨-, ⟨-, rfl⟩ | ⟨-, -, rfl⟩ | ⟨-, r, rest, -, rfl⟩ | ⟨-, -, rfl⟩ | ⟨-, w, i, x, -, -, hx, rfl⟩⟩ :=
    step_next_cases h
  · exact ⟨rfl, .inl rfl⟩
  · exact ⟨rfl, .inl rfl⟩
  · obtain ⟨-, -, hm, hp, -, -⟩ := respond_frame r (s.setHost rest)
    exact ⟨hp, .inl hm⟩
  · exact ⟨rfl, .inl rfl⟩
  · obtain ⟨-, -, -, -, hm, hp, -, -⟩ := complete_frame x
    obtain ⟨-, -, -, hpx, -, -⟩ := exec_frame hx
    refine ⟨hp.trans hpx, ?_⟩
    rw [hm]
    exact (exec_mem_cases hx).imp_right fun ⟨_, _, hser⟩ => ⟨_, _, hser⟩

/-- A step is made on an admissible platform only (20_memory.md R43). -/
theorem admissible_of_step {s u : State} (h : step s = .next u) : admissible s.params = true := (step_next_cases h).1

/-- Settles O42: a step that writes memory writes inside the address space. -/
theorem memoryStaysCanonical : Obligations.MemoryStaysCanonical := by
  intro s u hwf h
  obtain ⟨⟨-, -, hout⟩, -, -⟩ := admissible_iff.mp (admissible_of_step h)
  obtain ⟨-, hm | ⟨order, v, hm⟩⟩ := step_mem_cases h
  · rw [hm]; exact hwf
  · rw [hm]; exact Memory.wf_serFile hwf hout order v

/-- A step leaves every byte outside `OUT`. -/
theorem step_memRead_outside {s u : State} (hwf : Memory.wf s.mem = true) (h : step s = .next u) {x : Nat}
    (hx : ¬ (s.params.outAddr.toNat ≤ x ∧ x < s.params.outAddr.toNat + 64)) : memRead u.mem x = memRead s.mem x := by
  obtain ⟨⟨-, -, hout⟩, -, -⟩ := admissible_iff.mp (admissible_of_step h)
  obtain ⟨-, hm | ⟨order, v, hm⟩⟩ := step_mem_cases h
  · rw [hm]
  · rw [hm]; exact memRead_serFile_outside hwf hout order v hx

/-- On an admissible platform no byte of `KEY` lies in `OUT` (20_memory.md R43). -/
theorem key_outside_out {p : Params} (hadm : admissible p = true) {k : Nat} (hk : k < 32) :
    ¬ (p.outAddr.toNat ≤ p.keyAddr.toNat + k ∧ p.keyAddr.toNat + k < p.outAddr.toNat + 64) := by
  obtain ⟨-, ⟨-, hdisj, -⟩, -⟩ := admissible_iff.mp hadm
  omega

/-- On an admissible platform no byte of `NONCE` lies in `OUT` (20_memory.md R43). -/
theorem nonce_outside_out {p : Params} (hadm : admissible p = true) {k : Nat} (hk : k < 12) :
    ¬ (p.outAddr.toNat ≤ p.nonceAddr.toNat + k ∧ p.nonceAddr.toNat + k < p.outAddr.toNat + 64) := by
  obtain ⟨-, ⟨-, -, hdisj⟩, -⟩ := admissible_iff.mp hadm
  omega

/-- Settles O46: by what an operation and a step can do to memory, and `KEY` and `NONCE` lie outside `OUT`. -/
theorem onlySerWritesMemory : Obligations.OnlySerWritesMemory := by
  refine ⟨fun i s u h => ?operation, fun s u hwf h => ?step⟩
  case operation =>
    obtain ⟨-, -, -, hp, -, -⟩ := exec_frame h
    rcases exec_mem_cases h with hm | ⟨hi, hout, hm⟩
    · exact ⟨hp, fun _ => hm, fun _ _ _ => by rw [hm]⟩
    · exact ⟨hp, fun hne => absurd hi hne,
        fun hwf x hx => by rw [hm]; exact memRead_serFile_outside hwf hout _ _ hx⟩
  case step =>
    have hadm := admissible_of_step h
    obtain ⟨hp, -⟩ := step_mem_cases h
    exact ⟨hp, fun k hk => step_memRead_outside hwf h (key_outside_out hadm hk),
      fun k hk => step_memRead_outside hwf h (nonce_outside_out hadm hk)⟩

/-- A step leaves the cipher state that INIT gives for the key and nonce in memory. -/
theorem initOf_of_step {s u : State} (hwf : Memory.wf s.mem = true) (h : step s = .next u) : initOf u = initOf s := by
  obtain ⟨hp, hkey, hnonce⟩ := onlySerWritesMemory.2 s u hwf h
  rw [initOf, hp]
  exact initFile_congr hkey hnonce

end Sys2Proof.Machine

/-!
The operations of the micro-program by their place in the block (30_encoding.md R78, R79).
-/
namespace Sys2Proof.Machine

/-- The quarter round in slot `g` of a double round (30_encoding.md R79). -/
def slotInstr (g : Nat) : Instr := dRoundOps.getD g .halt

/-- The quarter round of a slot computes `slotRound` on the working block. -/
theorem exec_slotInstr {g : Nat} (hg : g < 8) (s : State) : exec (slotInstr g) s = .next (s.setW (slotRound g s.W)) := by
  interval_cases g <;> exact exec_qr_of_distinct (by decide) s

/-- COPY, 80 quarter rounds in the order of the slots, ADDS, SER, CTRINC (R78). -/
theorem microInstr_cases (t : Fin 84) :
    (t.val = 0 ∧ microInstr t = .copy) ∨
    ((1 ≤ t.val ∧ t.val ≤ 80) ∧ microInstr t = slotInstr ((t.val - 1) % 8)) ∨
    (t.val = 81 ∧ microInstr t = .adds) ∨ (t.val = 82 ∧ microInstr t = .ser) ∨
    (t.val = 83 ∧ microInstr t = .ctrinc) := by
  revert t; decide +kernel

theorem microInstr_of_ser {t : Fin 84} (h : t.val = 82) : microInstr t = .ser := by
  rw [show t = 82 from Fin.ext h]
  rfl

theorem microInstr_of_last {t : Fin 84} (h : t.val = 83) : microInstr t = .ctrinc := by
  rw [show t = 83 from Fin.ext h]
  rfl

/-- The working block before the quarter rounds and before ADDS. -/
theorem workBefore_of_le {t : Nat} (h : t ≤ 81) (v : RegFile) : workBefore t v = firstRounds (t - 1) v := if_pos h

/-- The working block from ADDS on. -/
theorem workBefore_of_lt {t : Nat} (h : 81 < t) (v : RegFile) : workBefore t v = blockWords v := if_neg (by omega)

/-- The quarter round at step `t` goes on from the ones before it. -/
theorem workBefore_succ {t : Nat} (hpos : 1 ≤ t) (hle : t ≤ 80) (v : RegFile) :
    workBefore (t + 1) v = slotRound ((t - 1) % 8) (workBefore t v) := by
  obtain ⟨n, rfl⟩ := Nat.exists_eq_add_of_le' hpos
  rw [workBefore_of_le (by omega), workBefore_of_le (by omega), Nat.add_sub_cancel, Nat.add_sub_cancel, firstRounds]

/-- ADDS makes the output words of the block. -/
theorem addFiles_workBefore (v : RegFile) : addFiles (workBefore 81 v) v = blockWords v := by
  rw [workBefore_of_le (by decide), blockWords, ← firstRounds_eighty]

/-- After step `t < 83` of the micro-program the working block is the one before step `t + 1`. -/
theorem exec_microInstr_W {t : Fin 84} {s x : State} (ht : t.val < 83) (hx : exec (microInstr t) s = .next x)
    (hW : t.val ≠ 0 → s.W = workBefore t.val s.S) : x.W = workBefore (t.val + 1) s.S := by
  rcases microInstr_cases t with ⟨h0, hi⟩ | ⟨⟨hpos, hle⟩, hi⟩ | ⟨h81, hi⟩ | ⟨h82, hi⟩ | ⟨h83, -⟩
  · rw [hi, exec_copy_eq] at hx
    cases hx
    rw [h0, workBefore_of_le (by decide), Nat.add_sub_cancel, firstRounds, State.setW_W]
  · rw [hi, exec_slotInstr (Nat.mod_lt _ (by decide))] at hx
    cases hx
    rw [workBefore_succ hpos hle, State.setW_W, hW (by omega)]
  · rw [hi, exec_adds_eq] at hx
    cases hx
    rw [State.setW_W, hW (by omega), h81, addFiles_workBefore, workBefore_of_lt (by decide)]
  · rw [hi] at hx
    obtain ⟨-, rfl⟩ := execSer_next.mp hx
    rw [State.setMem_W, hW (by omega), h82, workBefore_of_lt (by decide), workBefore_of_lt (by decide)]
  · omega

/-- Before its last step the micro-program leaves `S`. -/
theorem exec_microInstr_S {t : Fin 84} {s x : State} (ht : t.val < 83) (hx : exec (microInstr t) s = .next x) :
    x.S = s.S := by
  rcases exec_S_cases hx with hS | ⟨hi, -⟩ | ⟨hi, -⟩
  · exact hS
  · exact absurd hi (microInstr_ne_init t)
  · have hne : ∀ t : Fin 84, t.val < 83 → microInstr t ≠ .ctrinc := by decide +kernel
    exact absurd hi (hne t ht)

/-- Only step 82 of the micro-program writes memory. -/
theorem exec_microInstr_mem {t : Fin 84} {s x : State} (ht : t.val ≠ 82) (hx : exec (microInstr t) s = .next x) :
    x.mem = s.mem := by
  rcases exec_mem_cases hx with hm | ⟨hi, -⟩
  · exact hm
  · have hne : ∀ t : Fin 84, t.val ≠ 82 → microInstr t ≠ .ser := by decide +kernel
    exact absurd hi (hne t ht)

end Sys2Proof.Machine

/-!
One step of a run: everything a step can do from a state with the position invariant (43_keystream_driver.md section 1).
-/
namespace Sys2Proof.Machine

/-- Where the response leads before INIT (R151). -/
def movesBeforeInit : List (Top × Top) := [(.T0, .T1), (.T1, .T2), (.T2, .T3)]

theorem not_initialised_of_movesBeforeInit {q p : Top} (h : (q, p) ∈ movesBeforeInit) :
    initialised q = false ∧ initialised p = false := by
  have hall : ∀ m ∈ movesBeforeInit, initialised m.1 = false ∧ initialised m.2 = false := by decide
  exact hall _ h

/-- Up to INIT the position is at none of T4 to T8. -/
theorem ne_of_not_initialised {p : Top} (h : initialised p = false) :
    p ≠ .T4 ∧ p ≠ .T5 ∧ ¬ (p = .T6 ∨ p = .T7 ∨ p = .T8) := by
  cases p with
  | T0 | T1 | T2 | T3 => decide
  | T4 | T5 | T6 | T7 | T8 => cases h

/-- The steps of a run, by position: a step leads from `s` to the state that the constructor gives. -/
inductive RunStep (s : State) : State → Prop
  /-- T8: the core is halted. -/
  | halted (htop : s.top = .T8) (hc : s.chan = .pendingHalt) : RunStep s s
  /-- A signal is pending and unanswered. -/
  | blocked (hc : Waiting s) (hh : s.host = []) : RunStep s s
  /-- A signal's position makes its request pending. -/
  | issue (c : Chan) (hc : s.chan = .idle) (hreq : requestAt s.params s.top = some c) : RunStep s (s.setChan c)
  /-- The response at T0, T1 or T2. -/
  | answerBefore (r : Word) (rest : List Word) (p : Top) (hp : (s.top, p) ∈ movesBeforeInit)
      (hc : s.chan ≠ .idle) (hh : s.host = r :: rest) : RunStep s ((answered s r rest).setTop p)
  /-- T3: INIT. -/
  | init (htop : s.top = .T3) (hc : s.chan = .idle) : RunStep s (((s.setS (initOf s)).setI 0).setTop .T4)
  /-- The response at T4. -/
  | answerLoop (r : Word) (rest : List Word) (htop : s.top = .T4) (hc : s.chan ≠ .idle) (hh : s.host = r :: rest) :
      RunStep s (enterLoop (answered s r rest))
  /-- T5 before the last step of the micro-program. -/
  | micro (x : State) (htop : s.top = .T5) (hc : s.chan = .idle) (hlt : s.t.val < 83)
      (hx : exec (microInstr s.t) s = .next x) : RunStep s (x.setT ⟨s.t.val + 1, by omega⟩)
  /-- T5 at the last step of the micro-program, CTRINC. -/
  | blockEnd (htop : s.top = .T5) (hc : s.chan = .idle) (hlast : s.t.val = 83) :
      RunStep s (enterLoop ((s.setS (counterNext s.S)).setI (add32 s.i 1)))
  /-- The response at T6. -/
  | answerAfter (r : Word) (rest : List Word) (htop : s.top = .T6) (hc : s.chan ≠ .idle) (hh : s.host = r :: rest) :
      RunStep s ((answered s r rest).setTop .T7)
  /-- T7: HALT. -/
  | halt (htop : s.top = .T7) (hc : s.chan = .idle) : RunStep s ((s.setChan .pendingHalt).setTop .T8)

/-- A step with the position's own request pending. -/
theorem runStep_of_pending {s : State} (hadm : admissible s.params = true)
    (hreq : some s.chan = requestAt s.params s.top) : ∃ u, step s = .next u ∧ RunStep s u := by
  obtain ⟨type, value, hpend, -⟩ := requestAt_eq_some hreq.symm
  have hc : s.chan ≠ .idle := by simp [hpend]
  cases hh : s.host with
  | nil => exact ⟨s, step_of_blocked hadm ⟨type, value, hpend⟩ hh, .blocked ⟨type, value, hpend⟩ hh⟩
  | cons r rest =>
    have hstep := step_of_answer hadm hreq hh
    have hsame := answered_top s r rest
    cases htop : s.top with
    | T0 =>
      rw [advance_of_T0 (hsame.trans htop)] at hstep
      exact ⟨_, hstep, .answerBefore r rest .T1 (by rw [htop]; decide) hc hh⟩
    | T1 =>
      rw [advance_of_T1 (hsame.trans htop)] at hstep
      exact ⟨_, hstep, .answerBefore r rest .T2 (by rw [htop]; decide) hc hh⟩
    | T2 =>
      rw [advance_of_T2 (hsame.trans htop)] at hstep
      exact ⟨_, hstep, .answerBefore r rest .T3 (by rw [htop]; decide) hc hh⟩
    | T4 =>
      rw [advance_of_T4 (hsame.trans htop)] at hstep
      exact ⟨_, hstep, .answerLoop r rest htop hc hh⟩
    | T6 =>
      rw [advance_of_T6 (hsame.trans htop)] at hstep
      exact ⟨_, hstep, .answerAfter r rest htop hc hh⟩
    | T3 | T5 | T7 | T8 => rw [htop] at hreq; cases hreq

/-- A step at T5. -/
theorem runStep_at_T5 {s : State} (hadm : admissible s.params = true) (hs : OnSchedule s) (hc : s.chan = .idle)
    (htop : s.top = .T5) : ∃ u, step s = .next u ∧ RunStep s u := by
  obtain ⟨x, hx, hstep⟩ := step_at_T5 hadm hs hc htop
  obtain ⟨-, -, ht, -, -, -⟩ := exec_frame hx
  by_cases hlt : s.t.val < 83
  · rw [advanceBlock_of_lt (by rw [ht]; exact hlt)] at hstep
    simp only [ht] at hstep
    exact ⟨_, hstep, .micro x htop hc hlt hx⟩
  · have hlast : s.t.val = 83 := by omega
    rw [microInstr_of_last hlast, exec_ctrinc_eq] at hx
    cases hx
    rw [advanceBlock_of_last (s := s.setS (counterNext s.S)) hlast] at hstep
    exact ⟨_, hstep, .blockEnd htop hc hlast⟩

/-- A step before T8 with the channel idle. -/
theorem runStep_of_idle {s : State} (hadm : admissible s.params = true) (hs : OnSchedule s) (hc : s.chan = .idle)
    (hend : s.top ≠ .T8) : ∃ u, step s = .next u ∧ RunStep s u := by
  cases htop : s.top with
  | T0 | T1 | T2 | T4 | T6 =>
    have hreq : ∃ c, requestAt s.params s.top = some c := by rw [htop]; exact ⟨_, rfl⟩
    obtain ⟨c, hreq⟩ := hreq
    exact ⟨_, step_of_issue hadm hs hc hreq, .issue c hc hreq⟩
  | T3 => exact ⟨_, step_at_T3 hadm hs hc htop, .init htop hc⟩
  | T5 => exact runStep_at_T5 hadm hs hc htop
  | T7 => exact ⟨_, step_at_T7 hadm hs hc htop, .halt htop hc⟩
  | T8 => exact absurd htop hend

/-- In a run every step answers a next state, by one of the cases of `RunStep`. -/
theorem step_of_positionInv {s : State} (hpos : PositionInv s) : ∃ u, step s = .next u ∧ RunStep s u := by
  by_cases htop : s.top = .T8
  · exact ⟨s, step_of_pendingHalt hpos.platform (hpos.halted htop), .halted htop (hpos.halted htop)⟩
  · rcases hpos.chan htop with hc | hreq
    · exact runStep_of_idle hpos.platform hpos.schedule hc htop
    · exact runStep_of_pending hpos.platform hreq

theorem runStep_of_step {s u : State} (hpos : PositionInv s) (h : step s = .next u) : RunStep s u := by
  obtain ⟨v, hv, hrun⟩ := step_of_positionInv hpos
  cases hv.symm.trans h
  exact hrun

end Sys2Proof.Machine

/-!
The position invariant (10_state.md R16 to R18) along a step of a run.
-/
namespace Sys2Proof.Machine

/-- The loop test with at most `N` blocks done: into the block below `N`, past the loop at `N` (R153, R154). -/
theorem positionInv_enterLoop {s : State} (hadm : admissible s.params = true) (hs : OnSchedule s) (hc : s.chan = .idle)
    (hle : s.i.toNat ≤ s.N.toNat) : PositionInv (enterLoop s) := by
  by_cases hlt : s.i.toNat < s.N.toNat
  · rw [enterLoop_of_lt hlt]
    exact ⟨hadm, hs, fun _ => rfl, fun _ => .inl hc, by simp, by simp, fun _ => hlt, by simp⟩
  · rw [enterLoop_of_not_lt hlt]
    have hi : s.i = s.N := BitVec.eq_of_toNat_eq (by omega)
    exact ⟨hadm, hs, fun _ => rfl, fun _ => .inl hc, by simp, by simp, by simp, fun _ => hi⟩

/-- One more block done, below 2^32 since a block was still to do. -/
theorem add32_one_toNat {i n : Word} (h : i.toNat < n.toNat) : (add32 i 1).toNat = i.toNat + 1 := by
  have hn := n.isLt
  rw [add32_toNat]
  exact Nat.mod_eq_of_lt (by simp; omega)

/-- Every step of a run keeps the position invariant. -/
theorem PositionInv.of_runStep {s u : State} (hpos : PositionInv s) (h : RunStep s u) : PositionInv u := by
  obtain ⟨hadm, hs, ht, hchan, hhalted, hbefore, hinside, hafter⟩ := hpos
  cases h with
  | halted | blocked => exact ⟨hadm, hs, ht, hchan, hhalted, hbefore, hinside, hafter⟩
  | issue c hc hreq =>
    have hend : s.top ≠ .T8 := fun htop => by rw [htop] at hreq; cases hreq
    exact ⟨hadm, hs, ht, fun _ => .inr hreq.symm, fun htop => absurd htop hend, hbefore, hinside, hafter⟩
  | answerBefore r rest p hp hc hh =>
    obtain ⟨hq, hp⟩ := not_initialised_of_movesBeforeInit hp
    obtain ⟨-, hblock, -⟩ := ne_of_not_initialised hq
    obtain ⟨hT4, hT5, hpast⟩ := ne_of_not_initialised hp
    exact ⟨hadm, hs, fun _ => ht hblock, fun _ => .inl rfl, fun h => absurd (.inr (.inr h)) hpast,
      fun h => absurd h hT4, fun h => absurd h hT5, fun h => absurd h hpast⟩
  | init htop hc =>
    exact ⟨hadm, hs, fun _ => ht (by simp [htop]), fun _ => .inl hc, by simp, fun _ => rfl, by simp, by simp⟩
  | answerLoop r rest htop hc hh =>
    exact positionInv_enterLoop hadm hs rfl (by simp [hbefore htop])
  | micro x htop hc hlt hx =>
    obtain ⟨hN, hi, -, hp, -, hissue⟩ := exec_frame hx
    obtain ⟨hxc, hxtop⟩ := exec_chan_top (microInstr_notMem_requestOps s.t) hx
    rw [htop] at hxtop
    exact ⟨by simpa [hp] using hadm, hissue.trans hs, by simp [hxtop], fun _ => .inl (hxc.trans hc), by simp [hxtop],
      by simp [hxtop], fun _ => by simpa [hN, hi] using hinside htop, by simp [hxtop]⟩
  | blockEnd htop hc hlast =>
    refine positionInv_enterLoop hadm hs hc ?_
    have hlt := hinside htop
    simp only [State.setI_i, State.setI_N, State.setS_N, add32_one_toNat hlt]
    exact hlt
  | answerAfter r rest htop hc hh =>
    have hN : (answered s r rest).N = s.N := if_neg (by simp [htop])
    exact ⟨hadm, hs, fun _ => ht (by simp [htop]), fun _ => .inl rfl, by simp, by simp, by simp,
      fun _ => (hafter (.inl htop)).trans hN.symm⟩
  | halt htop hc =>
    exact ⟨hadm, hs, fun _ => ht (by simp [htop]), by simp, fun _ => rfl, by simp, by simp,
      fun _ => hafter (.inr (.inl htop))⟩

/-- Settles O39: by the cases of a run's step. -/
theorem positionInvariantKept : Obligations.PositionInvariantKept :=
  fun _ _ hpos h => hpos.of_runStep (runStep_of_step hpos h)

end Sys2Proof.Machine

/-!
The cipher invariant (10_state.md R13, R14, R16) along a step of a run.
-/
namespace Sys2Proof.Machine

/-- The loop test changes only the position. -/
theorem enterLoop_frame (s : State) : (enterLoop s).W = s.W ∧ (enterLoop s).S = s.S ∧ (enterLoop s).N = s.N ∧
    (enterLoop s).i = s.i ∧ (enterLoop s).chan = s.chan ∧ (enterLoop s).mem = s.mem ∧
    (enterLoop s).params = s.params := by
  unfold enterLoop
  split
  · exact ⟨rfl, rfl, rfl, rfl, rfl, rfl, rfl⟩
  · exact ⟨rfl, rfl, rfl, rfl, rfl, rfl, rfl⟩

/-- INIT's counter is 1, so its file is the cipher state of block 0 (10_state.md R14). -/
theorem initOf_eq_withCounter (s : State) : initOf s = withCounter (initOf s) (add32 1 0) := by
  rw [add32_zero]
  exact (withCounter_self (initOf s)).symm

/-- One step on, the cipher state is the one of the counter `1 + i` of the new `i`. -/
theorem cipher_of_runStep {s u : State} (hcipher : initialised s.top = true → s.S = withCounter (initOf s) (add32 1 s.i))
    (h : RunStep s u) (hinit : initialised u.top = true) : u.S = withCounter (initOf s) (add32 1 u.i) := by
  cases h with
  | halted | blocked | issue => exact hcipher hinit
  | answerBefore r rest p hp hc hh =>
    obtain ⟨-, hp⟩ := not_initialised_of_movesBeforeInit hp
    exact absurd hinit (by rw [State.setTop_top, hp]; decide)
  | init => exact initOf_eq_withCounter s
  | answerLoop r rest htop hc hh =>
    obtain ⟨-, hS, -, hi, -, -, -⟩ := enterLoop_frame (answered s r rest)
    rw [hS, hi]
    exact hcipher (by rw [htop]; rfl)
  | micro x htop hc hlt hx =>
    obtain ⟨-, hi, -, -, -, -⟩ := exec_frame hx
    rw [State.setT_S, State.setT_i, hi, exec_microInstr_S hlt hx]
    exact hcipher (by rw [htop]; rfl)
  | blockEnd htop hc hlast =>
    obtain ⟨-, hS, -, hi, -, -, -⟩ := enterLoop_frame ((s.setS (counterNext s.S)).setI (add32 s.i 1))
    rw [hS, hi, State.setI_S, State.setI_i, State.setS_S, hcipher (by rw [htop]; rfl), counterNext_withCounter,
      add32_assoc]
  | answerAfter r rest htop hc hh => exact hcipher (by rw [htop]; rfl)
  | halt htop hc => exact hcipher (by rw [htop]; rfl)

/-- Settles O40: `S` by the cases of a run's step; the key and nonce that it is made of stay in memory. -/
theorem cipherInvariantKept : Obligations.CipherInvariantKept := by
  rintro s u ⟨hpos, hwf, hcipher⟩ h
  refine ⟨positionInvariantKept s u hpos h, memoryStaysCanonical s u hwf h, fun hinit => ?cipher⟩
  case cipher =>
    rw [initOf_of_step hwf h]
    exact cipher_of_runStep hcipher (runStep_of_step hpos h) hinit

end Sys2Proof.Machine

/-!
The run invariant (43_keystream_driver.md R154, R158) along a step of a run.
-/
namespace Sys2Proof.Machine

/-- What `OUT` holds is a matter of memory and the parameters. -/
theorem OutHolds.congr {s u : State} {c : Word} (hm : u.mem = s.mem) (hp : u.params = s.params) (h : OutHolds s c) :
    OutHolds u c := by
  intro k hk
  rw [initOf, hm, hp]
  exact h k hk

/-- SER at step 82 writes the block of the counter in `S` to `OUT`, outside key and nonce. -/
theorem outHolds_after_ser {s x : State} (hinv : RunInv s) (htop : s.top = .T5) (ht : s.t.val = 82)
    (hx : exec (microInstr s.t) s = .next x) (hinit : initOf x = initOf s) : OutHolds x (add32 s.i 1) := by
  have hW : s.W = blockWords s.S := by rw [hinv.work htop (by omega), ht, workBefore_of_lt (by decide)]
  have hS : s.S = withCounter (initOf s) (add32 s.i 1) := by
    rw [add32_comm]
    exact hinv.cipher.cipher (by rw [htop]; rfl)
  rw [microInstr_of_ser ht] at hx
  obtain ⟨hout, rfl⟩ := execSer_next.mp hx
  intro k hk
  rw [hinit, ← hS, State.setMem_mem, State.setMem_params, hW]
  exact memRead_memWriteList_inside hinv.cipher.mem (by rw [length_serFile]; exact hout) (by rw [length_serFile]; exact hk)

/-- After the last step of a block, `OUT` holds block `i + 1`; so it does when the loop test has counted it. -/
theorem outHolds_after_blockEnd {s : State} (hinv : RunInv s) (htop : s.top = .T5) (hlast : s.t.val = 83) :
    OutHolds (enterLoop ((s.setS (counterNext s.S)).setI (add32 s.i 1))) (add32 s.i 1) := by
  obtain ⟨-, -, -, -, -, hm, hp⟩ := enterLoop_frame ((s.setS (counterNext s.S)).setI (add32 s.i 1))
  exact (hinv.serialised htop hlast).congr hm hp

/-- Where the loop test leads: to the first step of a block with fewer than `N` blocks done, or past the loop (R153). -/
theorem enterLoop_cases (s : State) :
    (s.i.toNat < s.N.toNat ∧ enterLoop s = (s.setTop .T5).setT 0) ∨
    (¬ s.i.toNat < s.N.toNat ∧ enterLoop s = (s.setTop .T6).setT 0) := by
  by_cases hlt : s.i.toNat < s.N.toNat
  · exact .inl ⟨hlt, enterLoop_of_lt hlt⟩
  · exact .inr ⟨hlt, enterLoop_of_not_lt hlt⟩

/-- The loop test starts a block or ends the loop with the run invariant, if `OUT` holds the last block done. -/
theorem runInv_enterLoop {s : State} (hcipher : CipherInv (enterLoop s)) (hout : s.i ≠ 0 → OutHolds (enterLoop s) s.i) :
    RunInv (enterLoop s) := by
  rcases enterLoop_cases s with ⟨-, he⟩ | ⟨-, he⟩
  · rw [he] at hcipher hout ⊢
    exact ⟨hcipher, fun _ h => absurd rfl h, fun _ _ h => hout h, fun _ h => absurd h (by simp), by simp⟩
  · rw [he] at hcipher hout ⊢
    have hi : s.i = s.N := hcipher.position.after (.inl rfl)
    exact ⟨hcipher, by simp, by simp, by simp, fun _ hN => hi ▸ hout (hi ▸ hN)⟩

/-- Every step of a run keeps what `W` and `OUT` hold. -/
theorem RunInv.of_runStep {s u : State} (hinv : RunInv s) (hcipher : CipherInv u) (hinit : initOf u = initOf s)
    (h : RunStep s u) : RunInv u := by
  have hpos := hinv.cipher.position
  cases h with
  | halted | blocked => exact hinv
  | issue c hc hreq =>
    exact ⟨hcipher, hinv.work, fun htop ht hi => (hinv.earlier htop ht hi).congr rfl rfl,
      fun htop ht => (hinv.serialised htop ht).congr rfl rfl, fun htop hN => (hinv.final htop hN).congr rfl rfl⟩
  | answerBefore r rest p hp hc hh =>
    obtain ⟨-, hp⟩ := not_initialised_of_movesBeforeInit hp
    obtain ⟨-, hblock, hpast⟩ := ne_of_not_initialised hp
    exact ⟨hcipher, fun h => absurd h hblock, fun h => absurd h hblock, fun h => absurd h hblock, fun h => absurd h hpast⟩
  | init htop hc => exact ⟨hcipher, by simp, by simp, by simp, by simp⟩
  | answerLoop r rest htop hc hh => exact runInv_enterLoop hcipher fun hi => absurd (hpos.before htop) hi
  | micro x htop hc hlt hx =>
    obtain ⟨-, hi, -, hp, -, -⟩ := exec_frame hx
    obtain ⟨-, hxtop⟩ := exec_chan_top (microInstr_notMem_requestOps s.t) hx
    refine ⟨hcipher, fun _ _ => ?work, fun _ ht hne => ?earlier, fun _ ht => ?serialised, fun h => ?final⟩
    case work =>
      rw [State.setT_W, State.setT_S, exec_microInstr_S hlt hx]
      exact exec_microInstr_W hlt hx (hinv.work htop)
    case earlier =>
      have ht' : s.t.val + 1 ≤ 82 := ht
      have hser : s.t.val ≠ 82 := by omega
      rw [State.setT_i, hi] at hne ⊢
      have hm : x.mem = s.mem := exec_microInstr_mem hser hx
      exact (hinv.earlier htop (by omega) hne).congr hm hp
    case serialised =>
      have ht' : s.t.val + 1 = 83 := ht
      rw [State.setT_i, hi]
      exact (outHolds_after_ser hinv htop (by omega) hx hinit).congr rfl rfl
    case final =>
      rw [State.setT_top, hxtop, htop] at h
      simp at h
  | blockEnd htop hc hlast => exact runInv_enterLoop hcipher fun _ => outHolds_after_blockEnd hinv htop hlast
  | answerAfter r rest htop hc hh =>
    have hN : (answered s r rest).N = s.N := if_neg (by simp [htop])
    refine ⟨hcipher, by simp, by simp, by simp, fun _ hne => ?_⟩
    rw [State.setTop_N, hN] at hne ⊢
    exact (hinv.final (.inl htop) hne).congr rfl rfl
  | halt htop hc =>
    exact ⟨hcipher, by simp, by simp, by simp, fun _ hne => (hinv.final (.inr (.inl htop)) hne).congr rfl rfl⟩

/-- Settles O41: by the cases of a run's step. -/
theorem runInvariantKept : Obligations.RunInvariantKept := by
  intro s u hinv h
  have hcipher := hinv.cipher
  exact hinv.of_runStep (cipherInvariantKept s u hcipher h) (initOf_of_step hcipher.mem h)
    (runStep_of_step hcipher.position h)

end Sys2Proof.Machine

/-!
Where runs begin, and what every step of a run can rely on (10_state.md R26, 60_exceptions.md R190).
-/
namespace Sys2Proof.Machine

/-- A start of a run meets the run invariant: nothing is claimed of `S`, `W` and `OUT` at T0. -/
theorem Start.runInv {s : State} (h : Start s) : RunInv s := by
  obtain ⟨hadm, hs, htop, ht, hc, hwf⟩ := h
  have hpos : PositionInv s := ⟨hadm, hs, fun _ => ht, fun _ => .inl hc, by simp [htop], by simp [htop], by simp [htop],
    by simp [htop]⟩
  exact ⟨⟨hpos, hwf, by rw [htop]; intro h; cases h⟩, by simp [htop], by simp [htop], by simp [htop], by simp [htop]⟩

/-- The key and the nonce of an admissible launch lie in the address space, so memory is canonical once they are written. -/
theorem wf_launchState {p : Params} (hadm : admissible p = true) (key : Vector Byte 32) (nonce : Vector Byte 12)
    (responses : List Word) :
    Memory.wf (memWriteList [] p.keyAddr.toNat key.toList) = true ∧
      Memory.wf (launchState p key nonce responses).mem = true := by
  obtain ⟨⟨hkey, hnonce, -⟩, -, -⟩ := admissible_iff.mp hadm
  have hwf : Memory.wf (memWriteList [] p.keyAddr.toNat key.toList) = true :=
    Memory.wf_memWriteList Memory.wf_reset (by rw [Vector.length_toList]; exact hkey)
  rw [launchState_mem]
  exact ⟨hwf, Memory.wf_memWriteList hwf (by rw [Vector.length_toList]; exact hnonce)⟩

theorem start_reset : Start State.reset := ⟨by decide, rfl, rfl, rfl, rfl, Memory.wf_reset⟩

theorem start_launchState {p : Params} (hadm : admissible p = true) (key : Vector Byte 32) (nonce : Vector Byte 12)
    (responses : List Word) : Start (launchState p key nonce responses) :=
  ⟨hadm, rfl, rfl, rfl, rfl, (wf_launchState hadm key nonce responses).2⟩

theorem launch_of_admissible {p : Params} (hadm : admissible p = true) (key : Vector Byte 32) (nonce : Vector Byte 12)
    (responses : List Word) : launch p key nonce responses = .next (launchState p key nonce responses) := if_pos hadm

/-- Settles O38: both are starts of a run. -/
theorem invariantsHoldAtLaunch : Obligations.InvariantsHoldAtLaunch :=
  ⟨⟨start_reset, start_reset.runInv⟩, fun _ key nonce responses hadm =>
    ⟨launch_of_admissible hadm key nonce responses, start_launchState hadm key nonce responses,
      (start_launchState hadm key nonce responses).runInv⟩⟩

theorem enterLoop_t (s : State) : (enterLoop s).t = 0 := by
  rcases enterLoop_cases s with ⟨-, he⟩ | ⟨-, he⟩ <;> rw [he, State.setT_t]

/-- A step of a run that answers the same state is a step after the halt or while a signal is unanswered: every other one
changes the channel, the position or the step of the block. -/
theorem RunStep.final_or_blocked {s u : State} (h : RunStep s u) (hsame : u = s) : Final s ∨ (Waiting s ∧ s.host = []) := by
  cases h with
  | halted htop hc => exact .inl ⟨htop, hc⟩
  | blocked hc hh => exact .inr ⟨hc, hh⟩
  | issue c hc hreq =>
    obtain ⟨type, value, rfl, -⟩ := requestAt_eq_some hreq
    have hchan := congrArg State.chan hsame
    rw [State.setChan_chan, hc] at hchan
    cases hchan
  | answerBefore r rest p hp hc hh => exact absurd (congrArg State.chan hsame).symm hc
  | init htop hc => exact absurd ((congrArg State.top hsame).trans htop) (by simp)
  | answerLoop r rest htop hc hh =>
    obtain ⟨-, -, -, -, hidle, -, -⟩ := enterLoop_frame (answered s r rest)
    exact absurd ((congrArg State.chan hsame).symm.trans hidle) hc
  | micro x htop hc hlt hx =>
    have ht := congrArg (fun v : State => v.t.val) hsame
    simp at ht
  | blockEnd htop hc hlast =>
    have ht := congrArg State.t hsame
    rw [enterLoop_t] at ht
    rw [← ht] at hlast
    cases hlast
  | answerAfter r rest htop hc hh => exact absurd (congrArg State.chan hsame).symm hc
  | halt htop hc => exact absurd ((congrArg State.top hsame).trans htop) (by simp)

/-- No step faults: the operations of the schedule and of a word put in place complete on an admissible platform. -/
theorem step_ne_fault (s : State) (r : Fault) : step s ≠ .fault r := by
  by_cases hadm : admissible s.params = true
  case neg => simp [step, hadm]
  cases hc : s.chan with
  | pendingHalt => simp [step_of_pendingHalt hadm hc]
  | pending type value => simp [step_of_pending hadm hc]
  | idle =>
    cases hf : fetchWord s with
    | none => simp [step, hadm, hc, hf]
    | some w =>
      cases hd : decode w with
      | error e => simp [step_of_reserved hadm hc hf hd]
      | ok i =>
        obtain ⟨u, hx⟩ := exec_completes_of_decode hd hadm
        simp [step_of_decode hadm hc hf hd, hx]

/-- Settles O43: no fault from any state, and in a run the cases of `RunStep`. -/
theorem noStepFaults : Obligations.NoStepFaults := by
  refine ⟨step_ne_fault, fun s hpos => ?progress⟩
  case progress =>
    obtain ⟨u, hstep, hrun⟩ := step_of_positionInv hpos
    exact ⟨u, hstep, hrun.final_or_blocked⟩

/-- Past the loop a step leaves memory and stays past the loop. -/
theorem RunStep.past_loop {s u : State} (h : RunStep s u) (hpast : s.top = .T6 ∨ s.top = .T7 ∨ s.top = .T8) :
    u.mem = s.mem ∧ (u.top = .T6 ∨ u.top = .T7 ∨ u.top = .T8) := by
  have hnot : ∀ p ∈ [Top.T3, .T4, .T5], s.top ≠ p := by
    rcases hpast with h | h | h <;> rw [h] <;> decide
  cases h with
  | halted | blocked | issue => exact ⟨rfl, hpast⟩
  | answerBefore r rest p hp hc hh =>
    obtain ⟨hq, -⟩ := not_initialised_of_movesBeforeInit hp
    obtain ⟨-, -, hearly⟩ := ne_of_not_initialised hq
    exact absurd hpast hearly
  | init htop | answerLoop _ _ htop | micro _ htop | blockEnd htop => exact absurd htop (hnot _ (by simp))
  | answerAfter r rest htop hc hh => exact ⟨rfl, .inr (.inl rfl)⟩
  | halt htop hc => exact ⟨rfl, .inr (.inr rfl)⟩

/-- Settles O56: by induction on the number of steps, with the position invariant kept. -/
theorem outputIsStable : Obligations.OutputIsStable := by
  intro k
  induction k with
  | zero => rintro s u - hpast h; cases h; exact ⟨rfl, hpast⟩
  | succ k ih =>
    intro s u hpos hpast h
    obtain ⟨v, hstep, hrun⟩ := step_of_positionInv hpos
    obtain ⟨hm, hpast'⟩ := hrun.past_loop hpast
    rw [run_succ_of_next hstep] at h
    obtain ⟨hmu, hu⟩ := ih v u (hpos.of_runStep hrun) hpast' h
    exact ⟨hmu.trans hm, hu⟩

end Sys2Proof.Machine

/-!
What the host reads (20_memory.md R55).
-/
namespace Sys2Proof.Machine

theorem inOut_iff {p : Params} {x : Nat} : inOut p x = true ↔ p.outAddr.toNat ≤ x ∧ x < p.outAddr.toNat + 64 := by
  simp [inOut]

/-- The window lasts from the pre-loop response to the post-loop request (R182). -/
theorem overwriteWindow_iff {s : State} : overwriteWindow s = true ↔ s.top = .T5 ∨ (s.top = .T6 ∧ s.chan = .idle) := by
  unfold overwriteWindow
  split <;> simp_all

/-- In the window of a run with `N >= 1` the host sees any byte of `OUT`. -/
theorem hostReadByte_inside_window {s : State} {x : Nat} (draw : Nat) (hwin : s.top = .T5 ∨ (s.top = .T6 ∧ s.chan = .idle))
    (hN : s.N ≠ 0) (hx : s.params.outAddr.toNat ≤ x ∧ x < s.params.outAddr.toNat + 64) :
    hostReadByte draw s x = Config.midRunByte draw x := by
  rw [hostReadByte, overwriteWindow_iff.mpr hwin, bne_iff_ne.mpr hN, inOut_iff.mpr hx]
  rfl

/-- Otherwise the host sees memory. -/
theorem hostReadByte_outside_window {s : State} {x : Nat} (draw : Nat)
    (h : ¬ ((s.top = .T5 ∨ (s.top = .T6 ∧ s.chan = .idle)) ∧ s.N ≠ 0 ∧
      s.params.outAddr.toNat ≤ x ∧ x < s.params.outAddr.toNat + 64)) : hostReadByte draw s x = memRead s.mem x := by
  refine if_neg fun hcond => h ?_
  simpa only [Bool.and_eq_true, overwriteWindow_iff, bne_iff_ne, inOut_iff] using hcond

/-- Settles O55: memory outside the window, where the run invariant says what `OUT` holds past the loop. -/
theorem hostSeesOutput : Obligations.HostSeesOutput := by
  intro draw s hinv
  refine ⟨fun k hk => ⟨fun hbefore => ?prior, fun hN hwin => ?window, fun hN hafter => ?after⟩, fun x hx => ?elsewhere⟩
  case prior =>
    refine hostReadByte_outside_window draw fun ⟨hwin, hN, _⟩ => ?_
    rcases hbefore with htop | htop | htop | htop | htop | hzero
    pick_goal 6
    · exact hN hzero
    all_goals simp [htop] at hwin
  case window => exact hostReadByte_inside_window draw hwin hN ⟨by omega, by omega⟩
  case after =>
    have hpast : s.top = .T6 ∨ s.top = .T7 ∨ s.top = .T8 := hafter.imp_left And.left
    have hclosed : ¬ (s.top = .T5 ∨ (s.top = .T6 ∧ s.chan = .idle)) := by
      rcases hafter with ⟨htop, hbusy⟩ | htop | htop <;> simp [*]
    rw [hostReadByte_outside_window draw fun ⟨hwin, _⟩ => hclosed hwin]
    exact hinv.final hpast hN k hk
  case elsewhere => exact hostReadByte_outside_window draw fun ⟨_, _, hin⟩ => hx hin

end Sys2Proof.Machine

/-!
Launch and reset (20_memory.md R43, 70_reset_and_hazards.md R220 to R222).
-/
namespace Sys2Proof.Machine

/-- Two byte ranges share no address exactly when one ends before the other begins. -/
theorem ranges_disjoint_iff {a b m n : Nat} (hm : 0 < m) (hn : 0 < n) :
    (∀ x, ¬ (a ≤ x ∧ x < a + m ∧ b ≤ x ∧ x < b + n)) ↔ a + m ≤ b ∨ b + n ≤ a := by
  constructor
  · intro h
    have hmax := h (max a b)
    omega
  · intro h x hx
    omega

/-- Settles O47: a launch is admitted when `admissible` holds, whose ranges are read address by address. -/
theorem launchPremises : Obligations.LaunchPremises := by
  refine ⟨fun p key nonce responses => ?launch, fun s hadm => ?step⟩
  case launch =>
    have hrefused : launch p key nonce responses = .refused .launchPremise ↔ ¬ admissible p = true := by
      unfold launch
      split
      · next hadm => simp [hadm]
      · next hadm => simp [hadm]
    rw [hrefused, admissible_iff, ranges_disjoint_iff (by decide) (by decide), ranges_disjoint_iff (by decide) (by decide),
      ranges_disjoint_iff (by decide) (by decide)]
    refine not_congr ⟨fun ⟨hspace, ⟨h1, h2, h3⟩, h4⟩ => ⟨by omega, h1, h2, h3, h4⟩,
      fun ⟨hspace, h1, h2, h3, h4⟩ => ⟨by omega, ⟨h1, h2, h3⟩, h4⟩⟩
  case step => simp [step, hadm]

/-- The bytes a launch leaves: the key, the nonce, and nothing else (R222). -/
theorem memRead_launchState {p : Params} (hadm : admissible p = true) (key : Vector Byte 32) (nonce : Vector Byte 12)
    (responses : List Word) :
    (∀ k : Fin 32, memRead (launchState p key nonce responses).mem (p.keyAddr.toNat + k.val) = key[k.val]) ∧
    (∀ k : Fin 12, memRead (launchState p key nonce responses).mem (p.nonceAddr.toNat + k.val) = nonce[k.val]) ∧
    (∀ k, k < 64 → memRead (launchState p key nonce responses).mem (p.outAddr.toNat + k) = 0) := by
  obtain ⟨⟨hkey, hnonce, -⟩, ⟨hkn, hko, hno⟩, -⟩ := admissible_iff.mp hadm
  obtain ⟨hwf, -⟩ := wf_launchState hadm key nonce responses
  have hempty : Memory.wf [] = true := rfl
  have hkeyLen : key.toList.length = 32 := Vector.length_toList
  have hnonceLen : nonce.toList.length = 12 := Vector.length_toList
  have hkeyFits : p.keyAddr.toNat + key.toList.length ≤ Config.addressSpace := by rw [hkeyLen]; exact hkey
  have hnonceFits : p.nonceAddr.toNat + nonce.toList.length ≤ Config.addressSpace := by rw [hnonceLen]; exact hnonce
  rw [launchState_mem]
  refine ⟨fun k => ?keyBytes, fun k => ?nonceBytes, fun k hk => ?outBytes⟩
  case keyBytes =>
    have hread := memRead_memWriteList_inside hempty hkeyFits (k := k.val) (by omega)
    rw [memRead_memWriteList_outside hwf hnonceFits (by omega)]
    simpa using hread
  case nonceBytes =>
    have hread := memRead_memWriteList_inside hwf hnonceFits (k := k.val) (by omega)
    simpa using hread
  case outBytes =>
    rw [memRead_memWriteList_outside hwf hnonceFits (by omega),
      memRead_memWriteList_outside hempty hkeyFits (by omega)]
    rfl

/-- A reset writes 64 zero bytes inside the address space on an admissible platform. -/
theorem zeroBytes_fit {p : Params} (hadm : admissible p = true) :
    p.outAddr.toNat + (List.replicate Config.outBytes unlistedByte).length ≤ Config.addressSpace := by
  obtain ⟨⟨-, -, hout⟩, -, -⟩ := admissible_iff.mp hadm
  rw [List.length_replicate]
  exact hout

theorem start_applyReset {s : State} (hadm : admissible s.params = true) (hwf : Memory.wf s.mem = true) :
    Start (applyReset s) := by
  refine ⟨hadm, rfl, rfl, rfl, rfl, ?_⟩
  rw [applyReset_mem]
  exact Memory.wf_memWriteList hwf (zeroBytes_fit hadm)

/-- A reset leaves every byte outside `OUT`. -/
theorem memRead_applyReset_outside {s : State} (hadm : admissible s.params = true) (hwf : Memory.wf s.mem = true) {x : Nat}
    (hx : ¬ (s.params.outAddr.toNat ≤ x ∧ x < s.params.outAddr.toNat + 64)) :
    memRead (applyReset s).mem x = memRead s.mem x := by
  rw [applyReset_mem]
  exact memRead_memWriteList_outside hwf (zeroBytes_fit hadm) (by rw [List.length_replicate]; exact hx)

/-- A reset leaves `OUT` zero. -/
theorem memRead_applyReset_out {s : State} (hadm : admissible s.params = true) (hwf : Memory.wf s.mem = true) {k : Nat}
    (hk : k < 64) : memRead (applyReset s).mem (s.params.outAddr.toNat + k) = 0 := by
  have hread := memRead_memWriteList_inside hwf (zeroBytes_fit hadm) (k := k) (by rw [List.length_replicate]; exact hk)
  rw [List.getElem?_replicate, if_pos hk] at hread
  rw [applyReset_mem]
  exact Option.some.inj hread

/-- Settles O48: by the bytes that a launch and a reset leave. -/
theorem resetAndLaunchState : Obligations.ResetAndLaunchState := by
  refine ⟨⟨rfl, rfl, rfl, fun _ _ => rfl⟩, fun p key nonce responses hadm => ?launch, fun s hadm hwf => ?reset⟩
  case launch =>
    exact ⟨_, launch_of_admissible hadm key nonce responses, rfl, rfl, rfl, rfl, rfl,
      memRead_launchState hadm key nonce responses⟩
  case reset =>
    exact ⟨start_applyReset hadm hwf, rfl, fun k hk => memRead_applyReset_outside hadm hwf (key_outside_out hadm hk),
      fun k hk => memRead_applyReset_outside hadm hwf (nonce_outside_out hadm hk),
      fun k hk => memRead_applyReset_out hadm hwf hk⟩

end Sys2Proof.Machine

/-!
Stretches of a run: a number of steps, the state they lead to, the requests they issue and the operations they perform.
-/
namespace Sys2Proof.Machine

/-- `k` steps lead from `s` to `u`, issue the requests `reqs` and perform the operations `ops`, in order. -/
structure RunsTo (k : Nat) (s u : State) (reqs : List Chan) (ops : List Instr) : Prop where
  ends : run k s = .next u
  requests : requestTrace k s = reqs
  operations : operationTrace k s = ops

theorem requestTrace_succ {k : Nat} {s u : State} (h : step s = .next u) :
    requestTrace (k + 1) s = issued s u ++ requestTrace k u := by
  rw [requestTrace, h]

theorem operationTrace_succ {k : Nat} {s u : State} (h : step s = .next u) :
    operationTrace (k + 1) s = performed s ++ operationTrace k u := by
  rw [operationTrace, h]

theorem RunsTo.zero (s : State) : RunsTo 0 s s [] [] := ⟨rfl, rfl, rfl⟩

/-- One step before a stretch. -/
theorem RunsTo.cons {k : Nat} {s v u : State} {reqs : List Chan} {ops : List Instr} (h : step s = .next v)
    (hrest : RunsTo k v u reqs ops) : RunsTo (k + 1) s u (issued s v ++ reqs) (performed s ++ ops) := by
  obtain ⟨hends, hreqs, hops⟩ := hrest
  exact ⟨(run_succ_of_next h).trans hends, by rw [requestTrace_succ h, hreqs], by rw [operationTrace_succ h, hops]⟩

theorem RunsTo.of_step {s u : State} (h : step s = .next u) : RunsTo 1 s u (issued s u) (performed s) := by
  simpa using RunsTo.cons h (RunsTo.zero u)

/-- Two stretches one after the other. -/
theorem RunsTo.trans {m k : Nat} {s v u : State} {reqs reqs' : List Chan} {ops ops' : List Instr}
    (h : RunsTo m s v reqs ops) (h' : RunsTo k v u reqs' ops') : RunsTo (m + k) s u (reqs ++ reqs') (ops ++ ops') := by
  induction m generalizing s reqs ops with
  | zero =>
    obtain ⟨hends, rfl, rfl⟩ := h
    cases hends
    rw [Nat.zero_add]
    exact h'
  | succ m ih =>
    obtain ⟨hends, rfl, rfl⟩ := h
    rw [run_succ] at hends
    split at hends
    · next x hx =>
      have hrest := RunsTo.cons hx (ih ⟨hends, rfl, rfl⟩)
      rw [requestTrace_succ hx, operationTrace_succ hx, Nat.succ_add, List.append_assoc, List.append_assoc]
      exact hrest
    · cases hends
    · cases hends

/-- A step that leaves the channel idle issues no request. -/
theorem issued_of_idle {s u : State} (hu : u.chan = .idle) : issued s u = [] := if_neg fun ⟨_, hbusy⟩ => hbusy hu

/-- A step that makes a request pending issues that request. -/
theorem issued_of_busy {s u : State} (hs : s.chan = .idle) (hu : u.chan ≠ .idle) : issued s u = [u.chan] :=
  if_pos ⟨hs, hu⟩

/-- A step with a request pending performs no operation. -/
theorem performed_of_busy {s : State} (hc : s.chan ≠ .idle) : performed s = [] := by
  unfold performed
  split
  · next hidle _ => exact absurd hidle hc
  · rfl

/-- A step with no request pending performs the scheduled operation. -/
theorem performed_of_schedule {s : State} {w : Word} {i : Instr} (hs : OnSchedule s) (hc : s.chan = .idle)
    (hw : scheduleWord s.top s.t = some w) (hd : decode w = .ok i) : performed s = [i] := by
  have hf : fetchWord s = some w := by rw [fetchWord, hs]; exact hw
  simp [performed, hc, hf, hd]

/-- After the halt request any number of steps changes nothing. -/
theorem runsTo_halted {s : State} (hadm : admissible s.params = true) (hc : s.chan = .pendingHalt) (k : Nat) :
    RunsTo k s s [] [] := by
  have hstep := step_of_pendingHalt hadm hc
  induction k with
  | zero => exact RunsTo.zero s
  | succ k ih =>
    have hrun := RunsTo.cons hstep ih
    rwa [issued_self, performed_of_busy (by simp [hc])] at hrun

end Sys2Proof.Machine

/-!
The block of a run (43_keystream_driver.md R154): the 84 steps at T5 are BLOCK, and the loop is BLOCK repeated.
-/
namespace Sys2Proof.Machine

/-- No operation reads or writes the step of the micro-program. -/
theorem exec_setT {i : Instr} {s u : State} (h : exec i s = .next u) (t : Fin 84) :
    exec i (s.setT t) = .next (u.setT t) := by
  cases i with
  | sigKey | sigNonce | sigCount | sigOut | halt | copy | adds | ctrinc => cases h; rfl
  | init =>
    obtain ⟨hspace, rfl⟩ := execInit_next.mp h
    exact execInit_next.mpr ⟨hspace, rfl⟩
  | qr a b c d =>
    obtain ⟨hdistinct, rfl⟩ := execQr_next.mp h
    exact execQr_next.mpr ⟨hdistinct, rfl⟩
  | ser =>
    obtain ⟨hspace, rfl⟩ := execSer_next.mp h
    exact execSer_next.mpr ⟨hspace, rfl⟩

theorem execList_setT {l : List Instr} {s u : State} (h : execList l s = .next u) (t : Fin 84) :
    execList l (s.setT t) = .next (u.setT t) := by
  induction l generalizing s with
  | nil => cases h; rfl
  | cons i l ih =>
    obtain ⟨x, hx, hrest⟩ := execList_cons_next h
    rw [execList_cons (exec_setT hx t), ih hrest]

/-- The loop test sets `t` itself. -/
theorem enterLoop_setT (s : State) (t : Fin 84) : enterLoop (s.setT t) = enterLoop s := by
  rcases enterLoop_cases s with ⟨hlt, he⟩ | ⟨hge, he⟩
  · rw [he]; exact enterLoop_of_lt (s := s.setT t) hlt
  · rw [he]; exact enterLoop_of_not_lt (s := s.setT t) hge

/-- The operation of a step of the micro-program is the first of the rest of BLOCK. -/
theorem microInstr_of_drop {t : Fin 84} {i : Instr} {l : List Instr} (h : blockOps.drop t.val = i :: l) :
    microInstr t = i := by
  have hhead : blockOps[t.val]? = some i := by rw [← List.head?_drop, h, List.head?_cons]
  rw [microInstr, List.getD_eq_getElem?_getD, hhead, Option.getD_some]

/-- One step of the block: the first operation of the rest of BLOCK is performed, without a request. -/
theorem step_of_restOfBlock {s : State} {i : Instr} {l : List Instr} (hadm : admissible s.params = true)
    (hs : OnSchedule s) (hc : s.chan = .idle) (htop : s.top = .T5) (hdrop : blockOps.drop s.t.val = i :: l) :
    ∃ x, exec i s = .next x ∧ step s = .next (advanceBlock x) ∧ performed s = [i] ∧ x.chan = .idle ∧ x.top = .T5 := by
  obtain ⟨x, hx, hstep⟩ := step_at_T5 hadm hs hc htop
  obtain ⟨hxc, hxtop⟩ := exec_chan_top (microInstr_notMem_requestOps s.t) hx
  have hperf : performed s = [microInstr s.t] :=
    performed_of_schedule hs hc (by rw [htop]; rfl) (decode_microWord s.t)
  rw [microInstr_of_drop hdrop] at hx hperf
  exact ⟨x, hx, hstep, hperf, hxc.trans hc, hxtop.trans htop⟩

/-- The steps from one step of the micro-program to its end perform the rest of BLOCK; then the block is counted and the loop
test is made. -/
theorem runsTo_restOfBlock (l : List Instr) : ∀ {s v : State}, admissible s.params = true → OnSchedule s → s.chan = .idle →
    s.top = .T5 → blockOps.drop s.t.val = l → execList l s = .next v →
    RunsTo l.length s (enterLoop (v.setI (add32 s.i 1))) [] l := by
  induction l with
  | nil =>
    intro s v _ _ _ _ hdrop _
    have hlen : blockOps.length ≤ s.t.val := List.drop_eq_nil_iff.mp hdrop
    exact absurd s.t.isLt (Nat.not_lt.mpr hlen)
  | cons i l ih =>
    intro s v hadm hs hc htop hdrop hexec
    have hlen : 84 - s.t.val = l.length + 1 := by
      rw [← List.length_cons (a := i), ← hdrop, List.length_drop]; rfl
    obtain ⟨x, hx, hstep, hperf, hxc, hxtop⟩ := step_of_restOfBlock hadm hs hc htop hdrop
    obtain ⟨-, hxi, hxt, hxp, -, hxs⟩ := exec_frame hx
    rw [execList_cons hx] at hexec
    by_cases hlt : s.t.val < 83
    · have hstep' : step s = .next (x.setT ⟨s.t.val + 1, by omega⟩) := by
        rw [hstep, advanceBlock_of_lt (by rw [hxt]; exact hlt)]
        simp only [hxt]
      have hdrop' : blockOps.drop (s.t.val + 1) = l := by rw [← List.tail_drop, hdrop, List.tail_cons]
      have hrest := RunsTo.cons hstep' (ih (by rw [State.setT_params, hxp]; exact hadm) (hxs.trans hs) hxc hxtop
        hdrop' (execList_setT hexec _))
      have hquiet : ∀ t, issued s (x.setT t) = [] := fun _ => issued_of_idle hxc
      rw [hquiet, hperf, State.setT_i, hxi] at hrest
      rw [← enterLoop_setT]
      exact hrest
    · have hlast : s.t.val = 83 := by omega
      have hnil : l = [] := List.length_eq_zero_iff.mp (by omega)
      subst hnil
      have hv : v = x := (Host.Outcome.next.inj hexec).symm
      rw [hv]
      rw [advanceBlock_of_last (by rw [hxt]; exact hlast), hxi] at hstep
      obtain ⟨-, -, -, -, hidle, -, -⟩ := enterLoop_frame (x.setI (add32 s.i 1))
      have hrun := RunsTo.of_step hstep
      rwa [issued_of_idle (hidle.trans hxc), hperf] at hrun

/-- `s` at the start of a position, with the loop registers, the channel and the responses to come. -/
def State.placed (s : State) (N i : Word) (top : Top) (chan : Chan) (host : List Word) : State :=
  { s with N := N, i := i, top := top, t := 0, chan := chan, host := host }

theorem enterLoop_placed_of_lt {N i : Word} (h : i.toNat < N.toNat) (s : State) (top : Top) (c : Chan) (l : List Word) :
    enterLoop (s.placed N i top c l) = s.placed N i .T5 c l := enterLoop_of_lt (s := s.placed N i top c l) h

theorem enterLoop_placed_end (s : State) (N : Word) (top : Top) (c : Chan) (l : List Word) :
    enterLoop (s.placed N N top c l) = s.placed N N .T6 c l :=
  enterLoop_of_not_lt (s := s.placed N N top c l) (Nat.lt_irrefl _)

section Run
variable {s : State} (hadm : admissible s.params = true) (hs : OnSchedule s)
include hadm hs

/-- The 84 steps of a block are BLOCK; then the block is counted and the loop test is made (R154). -/
theorem runsTo_block (N i : Word) (l : List Word) :
    RunsTo 84 (s.placed N i .T5 .idle l) (enterLoop ((afterBlock s).placed N (add32 i 1) .T5 .idle l)) [] blockOps := by
  obtain ⟨⟨-, -, hout⟩, -, -⟩ := admissible_iff.mp hadm
  have hexec := execList_blockOps (s := s.placed N i .T5 .idle l) hout
  exact runsTo_restOfBlock blockOps (s := s.placed N i .T5 .idle l) hadm hs rfl rfl rfl hexec

/-- With `m` blocks still to do the loop performs BLOCK `m` times and ends at T6 (R153, R154). -/
theorem runsTo_loop (m : Nat) {N i : Word} (hm : i.toNat + m = N.toNat) (top : Top) (l : List Word) :
    RunsTo (84 * m) (enterLoop (s.placed N i top .idle l)) ((afterBlock^[m] s).placed N N .T6 .idle l) []
      (repeatOps m blockOps) := by
  induction m generalizing s i top with
  | zero =>
    have hi : i = N := BitVec.eq_of_toNat_eq hm
    rw [hi, enterLoop_placed_end]
    exact RunsTo.zero _
  | succ m ih =>
    have hlt : i.toNat < N.toNat := by omega
    have hnext : (add32 i 1).toNat + m = N.toNat := by rw [add32_one_toNat hlt]; omega
    rw [enterLoop_placed_of_lt hlt, Nat.mul_succ, Nat.add_comm, repeatOps, Function.iterate_succ_apply]
    exact (runsTo_block hadm hs N i l).trans (ih (s := afterBlock s) hadm hs hnext .T5)

/-- At a signal's position the first step issues the position's request. -/
theorem runsTo_issue (N i : Word) (l : List Word) {p : Top} {c : Chan} {w : Word} {op : Instr}
    (hreq : requestAt s.params p = some c) (hw : scheduleWord p 0 = some w) (hd : decode w = .ok op) :
    RunsTo 1 (s.placed N i p .idle l) (s.placed N i p c l) [c] [op] := by
  have hrun := RunsTo.of_step (step_of_issue (s := s.placed N i p .idle l) hadm hs rfl hreq)
  obtain ⟨type, value, hc, -⟩ := requestAt_eq_some hreq
  have hperf : performed (s.placed N i p .idle l) = [op] := performed_of_schedule hs rfl hw hd
  rw [issued_of_busy rfl (by simp [hc]), hperf] at hrun
  exact hrun

omit hs in
/-- The next step takes the response. -/
theorem runsTo_answer (N i r : Word) (l : List Word) {p : Top} {c : Chan} (hreq : requestAt s.params p = some c) :
    RunsTo 1 (s.placed N i p c (r :: l)) (advance (answered (s.placed N i p c (r :: l)) r l)) [] [] := by
  have hrun := RunsTo.of_step (step_of_answer (s := s.placed N i p c (r :: l)) hadm hreq.symm rfl)
  obtain ⟨type, value, hc, -⟩ := requestAt_eq_some hreq
  obtain ⟨-, -, -, hidle, -⟩ := advance_frame (answered (s.placed N i p c (r :: l)) r l)
  have hbusy : (s.placed N i p c (r :: l)).chan ≠ .idle := by simp [State.placed, hc]
  rw [issued_of_idle (hidle.trans rfl), performed_of_busy hbusy] at hrun
  exact hrun

/-- The three signals before INIT, and INIT: 7 steps to T4 with the count latched (R150 to R152). -/
theorem runsTo_T4 (N i r0 r1 n : Word) (l : List Word) :
    RunsTo 7 (s.placed N i .T0 .idle (r0 :: r1 :: n :: l)) ((s.setS (initOf s)).placed n 0 .T4 .idle l)
      [.pending 0 s.params.keyAddr, .pending 1 s.params.nonceAddr, .pending 2 0]
      [.sigKey, .sigNonce, .sigCount, .init] := by
  have hkey := runsTo_issue hadm hs N i (r0 :: r1 :: n :: l) (p := .T0) rfl rfl
    (show decode 0x01000000 = .ok .sigKey by decide)
  have hkey' := runsTo_answer hadm N i r0 (r1 :: n :: l) (p := .T0) rfl
  have hnonce := runsTo_issue hadm hs N i (r1 :: n :: l) (p := .T1) rfl rfl
    (show decode 0x01000001 = .ok .sigNonce by decide)
  have hnonce' := runsTo_answer hadm N i r1 (n :: l) (p := .T1) rfl
  have hcount := runsTo_issue hadm hs N i (n :: l) (p := .T2) rfl rfl
    (show decode 0x01000002 = .ok .sigCount by decide)
  have hcount' := runsTo_answer hadm N i n l (p := .T2) rfl
  have hinit := RunsTo.of_step (step_at_T3 (s := s.placed n i .T3 .idle l) hadm hs rfl rfl)
  have hperf : performed (s.placed n i .T3 .idle l) = [.init] := performed_of_schedule hs rfl rfl (by decide)
  rw [issued_of_idle rfl, hperf] at hinit
  exact hkey.trans <| hkey'.trans <| hnonce.trans <| hnonce'.trans <| hcount.trans <| hcount'.trans hinit

/-- The post-loop SIG.OUT: one step to its request, one to T7 (R155). -/
theorem runsTo_postLoop (N i r : Word) (l : List Word) :
    RunsTo 1 (s.placed N i .T6 .idle (r :: l)) (s.placed N i .T6 (.pending 3 s.params.outAddr) (r :: l))
      [.pending 3 s.params.outAddr] [.sigOut] ∧
    RunsTo 1 (s.placed N i .T6 (.pending 3 s.params.outAddr) (r :: l)) (s.placed N i .T7 .idle l) [] [] :=
  ⟨runsTo_issue hadm hs N i (r :: l) rfl rfl (by decide), runsTo_answer hadm N i r l rfl⟩

/-- HALT, and any number of steps after it (R156). -/
theorem runsTo_halt (N i : Word) (l : List Word) (k : Nat) :
    RunsTo (1 + k) (s.placed N i .T7 .idle l) (s.placed N i .T8 .pendingHalt l) [.pendingHalt] [.halt] := by
  have hhalt := RunsTo.of_step (step_at_T7 (s := s.placed N i .T7 .idle l) hadm hs rfl rfl)
  have hperf : performed (s.placed N i .T7 .idle l) = [.halt] := performed_of_schedule hs rfl rfl (by decide)
  rw [issued_of_busy rfl (by simp), hperf] at hhalt
  exact hhalt.trans (runsTo_halted (s := s.placed N i .T8 .pendingHalt l) hadm rfl k)

end Run

end Sys2Proof.Machine

/-!
Whole runs (43_keystream_driver.md section 2): the stages of a run with count `n`, and what it leaves.
-/
namespace Sys2Proof.Machine

@[simp] theorem afterBlock_iterate_issue (n : Nat) (s : State) : (afterBlock^[n] s).issue = s.issue := by
  induction n with
  | zero => rfl
  | succ n ih => rw [Function.iterate_succ_apply']; exact ih

/-- `n` BLOCKs from the initial cipher state of the key and nonce in memory. -/
def afterRun (s : State) (n : Word) : State := afterBlock^[n.toNat] (s.setS (initOf s))

@[simp] theorem afterRun_params (s : State) (n : Word) : (afterRun s n).params = s.params :=
  afterBlock_iterate_params n.toNat (s.setS (initOf s))

@[simp] theorem afterRun_issue (s : State) (n : Word) : (afterRun s n).issue = s.issue :=
  afterBlock_iterate_issue n.toNat (s.setS (initOf s))

/-- The requests of a run before the loop (R161). -/
def requestsBeforeLoop (p : Params) : List Chan :=
  [.pending 0 p.keyAddr, .pending 1 p.nonceAddr, .pending 2 0, .pending 3 p.outAddr]

/-- The operations of a run before the loop (R160). -/
def opsBeforeLoop : List Instr := [.sigKey, .sigNonce, .sigCount, .init, .sigOut]

section Run
variable {s : State} (hadm : admissible s.params = true) (hs : OnSchedule s)
include hadm hs

/-- Up to the pre-loop request a run takes 8 steps. -/
theorem runsTo_preLoopRequest (N i r0 r1 n : Word) (l : List Word) :
    RunsTo 8 (s.placed N i .T0 .idle (r0 :: r1 :: n :: l))
      ((s.setS (initOf s)).placed n 0 .T4 (.pending 3 s.params.outAddr) l) (requestsBeforeLoop s.params) opsBeforeLoop :=
  (runsTo_T4 hadm hs N i r0 r1 n l).trans
    (runsTo_issue (s := s.setS (initOf s)) hadm hs n 0 l (p := .T4) rfl rfl (by decide))

/-- The response to it and the loop take `1 + 84 n` more. -/
theorem runsTo_T6 (N i r0 r1 n r3 : Word) (l : List Word) :
    RunsTo (9 + 84 * n.toNat) (s.placed N i .T0 .idle (r0 :: r1 :: n :: r3 :: l)) ((afterRun s n).placed n n .T6 .idle l)
      (requestsBeforeLoop s.params) (opsBeforeLoop ++ repeatOps n.toNat blockOps) := by
  have hanswer := runsTo_answer (s := s.setS (initOf s)) hadm n 0 r3 l (p := .T4) rfl
  have hloop := runsTo_loop (s := s.setS (initOf s)) hadm hs n.toNat (N := n) (i := 0) (Nat.zero_add _) .T4 l
  have hrun := ((runsTo_preLoopRequest hadm hs N i r0 r1 n (r3 :: l)).trans hanswer).trans hloop
  simp only [List.append_nil] at hrun
  exact hrun

/-- The post-loop request takes one step more, and its response another. -/
theorem runsTo_T7 (N i r0 r1 n r3 r4 : Word) (l : List Word) :
    RunsTo (10 + 84 * n.toNat) (s.placed N i .T0 .idle (r0 :: r1 :: n :: r3 :: r4 :: l))
      ((afterRun s n).placed n n .T6 (.pending 3 s.params.outAddr) (r4 :: l))
      (requestsBeforeLoop s.params ++ [.pending 3 s.params.outAddr])
      (opsBeforeLoop ++ (repeatOps n.toNat blockOps ++ [.sigOut])) ∧
    RunsTo (11 + 84 * n.toNat) (s.placed N i .T0 .idle (r0 :: r1 :: n :: r3 :: r4 :: l))
      ((afterRun s n).placed n n .T7 .idle l)
      (requestsBeforeLoop s.params ++ [.pending 3 s.params.outAddr])
      (opsBeforeLoop ++ (repeatOps n.toNat blockOps ++ [.sigOut])) := by
  have hadm' : admissible (afterRun s n).params = true := by rw [afterRun_params]; exact hadm
  have hs' : OnSchedule (afterRun s n) := (afterRun_issue s n).trans hs
  obtain ⟨hissue, hanswer⟩ := runsTo_postLoop hadm' hs' n n r4 l
  rw [afterRun_params] at hissue hanswer
  have hrequest := (runsTo_T6 hadm hs N i r0 r1 n r3 (r4 :: l)).trans hissue
  have hresponse := hrequest.trans hanswer
  rw [List.append_assoc, show 9 + 84 * n.toNat + 1 = 10 + 84 * n.toNat by omega] at hrequest
  rw [List.append_nil, List.append_nil, List.append_assoc,
    show 9 + 84 * n.toNat + 1 + 1 = 11 + 84 * n.toNat by omega] at hresponse
  exact ⟨hrequest, hresponse⟩

/-- A whole run and any number of steps after it: RUN with its count, `n` BLOCKs from the initial cipher state, halted. -/
theorem runsTo_T8 (N i r0 r1 n r3 r4 : Word) (l : List Word) (k : Nat) :
    RunsTo (12 + 84 * n.toNat + k) (s.placed N i .T0 .idle (r0 :: r1 :: n :: r3 :: r4 :: l))
      ((afterRun s n).placed n n .T8 .pendingHalt l)
      (requestsBeforeLoop s.params ++ [.pending 3 s.params.outAddr, .pendingHalt]) (runOps n.toNat) := by
  have hadm' : admissible (afterRun s n).params = true := by rw [afterRun_params]; exact hadm
  have hs' : OnSchedule (afterRun s n) := (afterRun_issue s n).trans hs
  obtain ⟨-, hT7⟩ := runsTo_T7 hadm hs N i r0 r1 n r3 r4 l
  have hrun := hT7.trans (runsTo_halt hadm' hs' n n l k)
  rw [show 11 + 84 * n.toNat + (1 + k) = 12 + 84 * n.toNat + k by omega] at hrun
  simpa [runOps, opsBeforeLoop] using hrun

end Run

/-- A start of a run is at T0 with its own registers and responses. -/
theorem Start.eq_placed {s : State} (h : Start s) : s = s.placed s.N s.i .T0 .idle s.host :=
  State.ext_fields rfl rfl rfl rfl h.top h.t h.chan rfl rfl rfl rfl

/-- A whole run from its start. -/
theorem Start.runsTo {s : State} {r0 r1 n r3 r4 : Word} {rest : List Word} (h : Start s)
    (hh : s.host = r0 :: r1 :: n :: r3 :: r4 :: rest) (k : Nat) :
    RunsTo (12 + 84 * n.toNat + k) s ((afterRun s n).placed n n .T8 .pendingHalt rest)
      (requestsBeforeLoop s.params ++ [.pending 3 s.params.outAddr, .pendingHalt]) (runOps n.toNat) := by
  have hrun := runsTo_T8 h.platform h.schedule s.N s.i r0 r1 n r3 r4 rest k
  rwa [← hh, ← h.eq_placed] at hrun

/-- Settles O51: the requests of the stages of a run. -/
theorem requestTraceOfARun : Obligations.RequestTraceOfARun := by
  intro s r0 r1 n r3 r4 rest h hh
  have hstart : s = s.placed s.N s.i .T0 .idle (r0 :: r1 :: n :: r3 :: r4 :: rest) := hh ▸ h.eq_placed
  have hT4 := runsTo_T4 h.platform h.schedule s.N s.i r0 r1 n (r3 :: r4 :: rest)
  have hpre := runsTo_preLoopRequest h.platform h.schedule s.N s.i r0 r1 n (r3 :: r4 :: rest)
  have hT6 := runsTo_T6 h.platform h.schedule s.N s.i r0 r1 n r3 (r4 :: rest)
  obtain ⟨hpost, hT7⟩ := runsTo_T7 h.platform h.schedule s.N s.i r0 r1 n r3 r4 rest
  rw [← hstart] at hT4 hpre hT6 hpost hT7
  refine ⟨fun k => (h.runsTo hh k).requests, ?_, ?_, ?_, ?_, ?_⟩
  · rw [hT4.requests]; rfl
  · rw [hpre.requests]; rfl
  · rw [hT6.requests]; rfl
  · rw [hpost.requests]; rfl
  · rw [hT7.requests]; rfl

theorem length_repeatOps (n : Nat) (l : List Instr) : (repeatOps n l).length = n * l.length := by
  induction n with
  | zero => rw [Nat.zero_mul]; rfl
  | succ n ih => rw [repeatOps, List.length_append, ih, Nat.succ_mul, Nat.add_comm]

/-- Settles O52: the operations of a whole run, counted. -/
theorem operationsOfARun : Obligations.OperationsOfARun := by
  refine ⟨fun s r0 r1 n r3 r4 rest h hh k => (h.runsTo hh k).operations, fun n => ?count⟩
  case count =>
    have hblock : blockOps.length = 84 := rfl
    simp only [runOps, List.length_append, length_repeatOps, hblock, List.length_cons, List.length_nil]
    omega

/-- Settles O53: the end of a run does not hold the discarded responses. -/
theorem discardedResponsesDoNotMatter : Obligations.DiscardedResponsesDoNotMatter := by
  intro s n r0 r1 r3 r4 q0 q1 q3 q4 rest k h
  have hends : ∀ a b c d : Word, run (12 + 84 * n.toNat + k) { s with host := a :: b :: n :: c :: d :: rest } =
      .next ((afterRun s n).placed n n .T8 .pendingHalt rest) := by
    intro a b c d
    have hstart : { s with host := a :: b :: n :: c :: d :: rest } =
        s.placed s.N s.i .T0 .idle (a :: b :: n :: c :: d :: rest) := by
      rw [h.eq_placed]; rfl
    rw [hstart]
    exact (runsTo_T8 h.platform h.schedule s.N s.i a b n c d rest k).ends
  rw [hends, hends]

/-- `OUT` of an admissible platform lies in the address space. -/
theorem out_in_space {p : Params} (hadm : admissible p = true) : p.outAddr.toNat + 64 ≤ 2 ^ 32 := by
  obtain ⟨⟨-, -, hout⟩, -, -⟩ := admissible_iff.mp hadm
  exact hout

/-- Settles O54: the run's blocks are those of `afterBlock` iterated, as BLOCK's are. -/
theorem driverComposesTheBlock : Obligations.DriverComposesTheBlock := by
  intro s r0 r1 n r3 r4 rest h hh
  exact ⟨_, _, (h.runsTo hh 0).ends, execList_repeat_blockOps n.toNat (s := s.setS (initOf s)) (out_in_space h.platform),
    rfl, rfl⟩

/-- INIT's counter is 1 (10_state.md R14). -/
theorem regRead_initOf_counter (s : State) : regRead (initOf s) 12 = 1 := rfl

/-- Settles O50: the `n` BLOCKs of a run from the initial cipher state, whose counter is 1 (`repeatedBlocks`). -/
theorem finalBlockOfARun : Obligations.FinalBlockOfARun := by
  intro s r0 r1 n r3 r4 rest h hh hn
  have hout := out_in_space h.platform
  obtain ⟨v, hv, hS, hblock, hframe⟩ := repeatedBlocks n.toNat (s.setS (initOf s)) h.mem hout
  have hpos : 1 ≤ n.toNat := Nat.one_le_iff_ne_zero.mpr fun h0 => hn (BitVec.eq_of_toNat_eq h0)
  have hcounter : BitVec.ofNat 32 (1 + n.toNat) = add32 1 n := by
    apply BitVec.eq_of_toNat_eq
    rw [add32_toNat, BitVec.toNat_ofNat]; rfl
  have hlast : BitVec.ofNat 32 (1 + n.toNat - 1) = n := by
    rw [Nat.add_sub_cancel_left, BitVec.ofNat_toNat, BitVec.setWidth_eq]
  cases hv.symm.trans (execList_repeat_blockOps n.toNat (s := s.setS (initOf s)) hout)
  have hone : (regRead (s.setS (initOf s)).S 12).toNat = 1 := rfl
  rw [hone, hcounter] at hS
  rw [hone, hlast] at hblock
  exact ⟨_, (h.runsTo hh 0).ends, ⟨rfl, rfl⟩, rfl, rfl, rfl, afterRun_params s n, hS, hblock hpos, hframe⟩

/-- Settles O49: a run with no BLOCK; from a launch `OUT` is as the launch left it. -/
theorem zeroIterations : Obligations.ZeroIterations := by
  refine ⟨fun s r0 r1 r3 r4 rest h hh => ?run, fun p key nonce r0 r1 r3 r4 rest hadm => ?fromLaunch⟩
  case run =>
    have hrun := h.runsTo hh 0
    refine ⟨hrun.ends.trans (congrArg Host.Outcome.next ?_), regRead_initOf_counter s, hrun.operations⟩
    exact State.ext_fields rfl rfl rfl rfl rfl h.t.symm rfl rfl rfl rfl rfl
  case fromLaunch =>
    have hstart := start_launchState hadm key nonce (r0 :: r1 :: 0 :: r3 :: r4 :: rest)
    obtain ⟨-, -, hout⟩ := memRead_launchState hadm key nonce (r0 :: r1 :: 0 :: r3 :: r4 :: rest)
    exact ⟨_, (hstart.runsTo rfl 0).ends, ⟨rfl, rfl⟩, hout⟩

end Sys2Proof.Machine
